-- ==== Sys2Proof/Word.lean ====
section
/-! DEFINITION. The bit-vector types of the BCD clock core (00_scope.md R6, R7; 10_state.md R20; 30_encoding.md R71).
Bit 0 is the least significant bit of every type, and every value is unsigned (R7). -/

namespace Sys2Proof

/-- A digit as the segment decoder takes it: 4 bits, unsigned (R75). -/
abbrev Digit := BitVec 4

/-- The five logical action lines `BTN_N[4:0]`, active low (R51). -/
abbrev Lines := BitVec 5

/-- A 7-bit segment pattern: bit 0 is stroke a, bit 6 is stroke g, 1 is lit (R151). -/
abbrev Pattern := BitVec 7

/-- A packed TimeValue (R24). -/
abbrev TimeWord := BitVec 20

/-- An operation word (R71). -/
abbrev OpWord := BitVec 24

end Sys2Proof
end

