-- ==== Sys2Proof/Syntax.lean ====
section
/-! DEFINITION. The operations of the core, one constructor per row of spec/opcode_table.json (30_encoding.md R76),
and what the environment presents at the direct operation interface (45_main_loop.md R215). -/

namespace Sys2Proof

/-- The rows of the opcode map (R76). The operands are the fields of R72, R74 and R75, unsigned (R79). -/
inductive Instr where
  /-- SET (R102), format S: the six digit fields, any bit pattern (R72) -/
  | set (ht : BitVec 2) (hu : BitVec 4) (mt : BitVec 3) (mu : BitVec 4) (st : BitVec 3) (su : BitVec 4)
  /-- TOGGLE_FORMAT (R103) -/
  | toggleFormat
  /-- INC_MINUTE (R104) -/
  | incMinute
  /-- DEC_MINUTE (R105) -/
  | decMinute
  /-- INC_HOUR (R107) -/
  | incHour
  /-- DEC_HOUR (R108) -/
  | decHour
  /-- ADVANCE_SECOND (R109) -/
  | advanceSecond
  /-- REFRESH (R161) -/
  | refresh
  /-- HOUR_UP_ACTION (R195) -/
  | hourUpAction
  /-- STEP (R211), format B: a snapshot of the five action lines (R74) -/
  | step (btn : Lines)
  /-- SEGDEC (R150), format C: the segment decoder's input, no operation word (R75) -/
  | segdec (d : Digit)
  /-- the first "(reserved)" row: a whole word with OP 0xA or 0xB (R78) -/
  | reservedAB (word : OpWord)
  /-- the second "(reserved)" row: a whole word with OP 0xC to 0xF (R78) -/
  | reservedCF (word : OpWord)
deriving DecidableEq, Repr

/-- What can be presented to the core from outside: an operation word, or a digit at the input of the
combinational decoder, which has no operation word (R71, R75, R215). -/
inductive Issue where
  | opWord (w : OpWord)
  | digit (d : Digit)
deriving DecidableEq, Repr

end Sys2Proof
end

