-- ==== Sys2Proof/WellFormed.lean ====
section
/-! DEFINITION. Well-formed operations. The operand types hold every field at its width, so only the two reserved
rows, which carry the refused word whole, need a check: the word lies in the row's space (30_encoding.md R76, R78). -/

namespace Sys2Proof

/-- The operation stands for words of its own row. -/
def Instr.wellFormed : Instr → Bool
  | .reservedAB w => w &&& 0xE00000#24 == 0xA00000#24
  | .reservedCF w => w &&& 0xC00000#24 == 0xC00000#24
  | .set _ _ _ _ _ _ => true
  | .toggleFormat => true
  | .incMinute => true
  | .decMinute => true
  | .incHour => true
  | .decHour => true
  | .advanceSecond => true
  | .refresh => true
  | .hourUpAction => true
  | .step _ => true
  | .segdec _ => true

end Sys2Proof
end

