-- ==== Sys2Proof/Decode.lean ====
section
/-! DEFINITION. Decoding and encoding (30_encoding.md R71 to R80). Decoding is total over all 2^24 words (R77) and
rejects by name. There are no bytes and no byte order (R52): a word is presented whole (log entry 10). -/

namespace Sys2Proof

/-- The reasons of R77 and R233. -/
inductive ReservedReason where
  /-- OP 0xA to 0xF -/
  | reservedOpcode
  /-- a must-be-zero payload bit is set -/
  | nonzeroReservedField
deriving DecidableEq, Repr

/-- Bits 23:20 of an operation word (R71). -/
def opField (w : OpWord) : BitVec 4 := w.extractLsb' 20 4

/-- Bits 19:0 of an operation word (R71). -/
def payload (w : OpWord) : BitVec 20 := w.extractLsb' 0 20

/-- Format Z (R73): the operation has no operand, and the payload must be 0. -/
def decodeZ (p : BitVec 20) (i : Instr) : Except ReservedReason Instr :=
  if p = 0#20 then .ok i else .error .nonzeroReservedField

/-- Format S (R72, R24). -/
def decodeS (p : BitVec 20) : Instr :=
  .set (p.extractLsb' 18 2) (p.extractLsb' 14 4) (p.extractLsb' 11 3) (p.extractLsb' 7 4)
    (p.extractLsb' 4 3) (p.extractLsb' 0 4)

/-- Format B (R74): bits 19:5 of the payload must be 0. -/
def decodeB (p : BitVec 20) : Except ReservedReason Instr :=
  if p.extractLsb' 5 15 = 0#15 then .ok (.step (p.extractLsb' 0 5)) else .error .nonzeroReservedField

/-- `decode_op` of R77. A word of OP 0xA to 0xF decodes to the operation of its "(reserved)" row, whose meaning is
the refusal RESERVED_OPCODE; a word that matches no row is rejected here, as NONZERO_RESERVED_FIELD (log entry 15). -/
def decodeOp (w : OpWord) : Except ReservedReason Instr :=
  match (opField w).toNat with
  | 0x0 => .ok (decodeS (payload w))
  | 0x1 => decodeZ (payload w) .toggleFormat
  | 0x2 => decodeZ (payload w) .incMinute
  | 0x3 => decodeZ (payload w) .decMinute
  | 0x4 => decodeZ (payload w) .incHour
  | 0x5 => decodeZ (payload w) .decHour
  | 0x6 => decodeZ (payload w) .advanceSecond
  | 0x7 => decodeZ (payload w) .refresh
  | 0x8 => decodeZ (payload w) .hourUpAction
  | 0x9 => decodeB (payload w)
  | 0xA => .ok (.reservedAB w)
  | 0xB => .ok (.reservedAB w)
  | _ => .ok (.reservedCF w)

/-- What the core reads from a presented item. A digit is the decoder's input, and all 16 values are legal (R75). -/
def decode : Issue → Except ReservedReason Instr
  | .opWord w => decodeOp w
  | .digit d => .ok (.segdec d)

/-- Format Z word of an opcode (R73). -/
def encodeZ (op : BitVec 4) : OpWord := op ++ 0#20

/-- The presented item that stands for an operation, from the tables of R72 to R76. -/
def encode : Instr → Issue
  | .set ht hu mt mu st su => .opWord (0x0#4 ++ ht ++ hu ++ mt ++ mu ++ st ++ su)
  | .toggleFormat => .opWord (encodeZ 0x1#4)
  | .incMinute => .opWord (encodeZ 0x2#4)
  | .decMinute => .opWord (encodeZ 0x3#4)
  | .incHour => .opWord (encodeZ 0x4#4)
  | .decHour => .opWord (encodeZ 0x5#4)
  | .advanceSecond => .opWord (encodeZ 0x6#4)
  | .refresh => .opWord (encodeZ 0x7#4)
  | .hourUpAction => .opWord (encodeZ 0x8#4)
  | .step btn => .opWord (0x9#4 ++ 0#15 ++ btn)
  | .segdec d => .digit d
  | .reservedAB w => .opWord w
  | .reservedCF w => .opWord w

/-- A row of the opcode map with 24-bit match and mask (R76). -/
structure OpRow where
  pattern : OpWord
  mask : OpWord
deriving DecidableEq, Repr

/-- The word lies in the row: its masked bits are the row's pattern (R76). -/
def OpRow.holds (r : OpRow) (w : OpWord) : Bool := w &&& r.mask == r.pattern

/-- The 24-bit rows of the opcode map, in the order of R76 and of opcode_table.json. -/
def opRows : List OpRow :=
  [⟨0x000000#24, 0xF00000#24⟩, ⟨0x100000#24, 0xFFFFFF#24⟩, ⟨0x200000#24, 0xFFFFFF#24⟩,
   ⟨0x300000#24, 0xFFFFFF#24⟩, ⟨0x400000#24, 0xFFFFFF#24⟩, ⟨0x500000#24, 0xFFFFFF#24⟩,
   ⟨0x600000#24, 0xFFFFFF#24⟩, ⟨0x700000#24, 0xFFFFFF#24⟩, ⟨0x800000#24, 0xFFFFFF#24⟩,
   ⟨0x900000#24, 0xFFFFE0#24⟩, ⟨0xA00000#24, 0xE00000#24⟩, ⟨0xC00000#24, 0xC00000#24⟩]

/-- The row of an operation that has an operation word; SEGDEC has none (R76). -/
def rowOf : Instr → Option OpRow
  | .set _ _ _ _ _ _ => some ⟨0x000000#24, 0xF00000#24⟩
  | .toggleFormat => some ⟨0x100000#24, 0xFFFFFF#24⟩
  | .incMinute => some ⟨0x200000#24, 0xFFFFFF#24⟩
  | .decMinute => some ⟨0x300000#24, 0xFFFFFF#24⟩
  | .incHour => some ⟨0x400000#24, 0xFFFFFF#24⟩
  | .decHour => some ⟨0x500000#24, 0xFFFFFF#24⟩
  | .advanceSecond => some ⟨0x600000#24, 0xFFFFFF#24⟩
  | .refresh => some ⟨0x700000#24, 0xFFFFFF#24⟩
  | .hourUpAction => some ⟨0x800000#24, 0xFFFFFF#24⟩
  | .step _ => some ⟨0x900000#24, 0xFFFFE0#24⟩
  | .reservedAB _ => some ⟨0xA00000#24, 0xE00000#24⟩
  | .reservedCF _ => some ⟨0xC00000#24, 0xC00000#24⟩
  | .segdec _ => none

/-- The presented item whose bits, numbered as opcode_table.json numbers them, are `w`. A row of at most 8 bits is
format C, the 4-bit decoder input; every other row is an operation word of 24 bits (log entry 10). -/
def issueOf (nbits w : Nat) : Option Issue :=
  if nbits ≤ 8 then
    if w < 16 then some (.digit (BitVec.ofNat 4 w)) else none
  else if w < 16777216 then some (.opWord (BitVec.ofNat 24 w)) else none

/-- The operation the decoder reads from the bits of a table row, or none where it rejects them. -/
def decodeTableWord (nbits w : Nat) : Option Instr :=
  match issueOf nbits w with
  | none => none
  | some x =>
    match decode x with
    | .ok i => some i
    | .error _ => none

end Sys2Proof
end

