-- ==== Sys2Proof/Config.lean ====
section
/-! DEFINITION. The parameters of a model instance (00_scope.md R5) and the free values of the environment.
The parameters with a default are fields of `Params`, an argument of every operation (log entry 3);
their default values stand in Sys2Proof/Machine/Defaults.lean.
The OPEN parameter P_ACTION_PIN_MAP and the levels of the pins are opaque: nothing can evaluate them (log entry 8). -/

namespace Sys2Proof

/-- The two legal values of `P_HOURUP_PRECHECK` (R5, 92_eei_decisions.md D12). -/
inductive HourUpPrecheck where
  /-- the pre-check compares with 24, the default -/
  | at24
  /-- the pre-check compares with 23 -/
  | at23
deriving DecidableEq, Repr

/-- The parameters of R5 that a model takes as arguments. No operation writes them (R34). -/
structure Params where
  /-- `P_TICKS_PER_SECOND`, written N: REFRESH calls per advanced second -/
  ticksPerSecond : Nat
  /-- `P_SEG_TABLE`: the pattern of each digit 0..9 -/
  segTable : Vector Pattern 10
  /-- `P_HOURUP_PRECHECK` -/
  hourUpPrecheck : HourUpPrecheck
  /-- `P_DELAY_REFRESH_MS`, timing only -/
  delayRefreshMs : Nat
  /-- `P_DELAY_MINOR_MS`, timing only -/
  delayMinorMs : Nat
  /-- `P_DELAY_HOUR_MS`, timing only -/
  delayHourMs : Nat
deriving DecidableEq, Repr

namespace Config

/-- `P_ACTION_PIN_MAP` (R5, R199): which of the four physical pins feeds each of the five action lines.
OPEN in the spec: a constant of the board about which nothing is known (log entry 8). -/
opaque actionPinMap : Fin 5 → Fin 4

/-- The levels of the four physical button pins in the n-th main-loop iteration: a draw under no law (R30,
92_eei_decisions.md D17). Each line is read once in an iteration, and lines on one pin read one level (R199; log entry
8). -/
opaque pinLevels : Nat → BitVec 4

end Config
end Sys2Proof
end

