-- ==== Sys2Proof/Machine/Defaults.lean ====
section
/-! DEFINITION. The parameters of 00_scope.md R5: the derived width W_TICK, and the default values (log entry 4). -/

namespace Sys2Proof.Machine

/-- `W_TICK = max(1, ceil(log2 N))` (R5, R27). -/
def wTick (n : Nat) : Nat := max 1 (Nat.clog 2 n)

/-- The default `P_SEG_TABLE` of 42_segment_decoder.md R152. PRESUMED by the spec itself: "from general knowledge,
not in source"; no operation outside the decoder depends on the values. -/
def defaultSegTable : Vector Pattern 10 :=
  #v[0x3F#7, 0x06#7, 0x5B#7, 0x4F#7, 0x66#7, 0x6D#7, 0x7D#7, 0x07#7, 0x7F#7, 0x6F#7]

/-- The default instance: N = 225, the table of R152, pre-check at 24, delays 1, 50 and 100 ms (R5). -/
def defaultParams : Params where
  ticksPerSecond := 225
  segTable := defaultSegTable
  hourUpPrecheck := .at24
  delayRefreshMs := 1
  delayMinorMs := 50
  delayHourMs := 100

end Sys2Proof.Machine
end

