-- ==== Sys2Proof/Machine/State.lean ====
section
/-! DEFINITION. The state of the BCD clock core (10_state.md): the twelve registers of R20, the two marks of R32,
the parameters of the instance (R5), and the environment's side of the interface (log entries 3, 7, 8, 9). -/

namespace Sys2Proof.Machine

/-- The hardware registers, exactly those of R20, at the widths of R20; `W` is W_TICK (R5, R27; log entry 11). -/
structure Regs (W : Nat) where
  /-- hour tens -/
  HT : BitVec 2
  /-- hour units -/
  HU : BitVec 4
  /-- minute tens -/
  MT : BitVec 3
  /-- minute units -/
  MU : BitVec 4
  /-- second tens -/
  ST : BitVec 3
  /-- second units -/
  SU : BitVec 4
  /-- hour format flag: true is 1, 24h mode; false is 0, 12h mode (R23) -/
  FMT24 : Bool
  /-- display cursor (R26) -/
  CUR : BitVec 3
  /-- tick counter (R27), of W_TICK bits -/
  TICK : BitVec W
  /-- sequencer phase, the program-counter analogue (R28) -/
  PHASE : BitVec 3
  /-- segment output (R29) -/
  SEG : BitVec 7
  /-- digit-select output (R29) -/
  DSEL : BitVec 6
deriving DecidableEq, Repr

/-- The FAULT mark of R32: a set over the one fault reason of R232, as its membership bit. -/
structure FaultSet where
  invalidState : Bool
deriving DecidableEq, Repr

/-- The REFUSED mark of R32: a set over the two refusal reasons of R233, as its membership bits. -/
structure RefusedSet where
  reservedOpcode : Bool
  nonzeroReservedField : Bool
deriving DecidableEq, Repr

/-- A set of refusal reasons with one more: no reason leaves it (R234). -/
def RefusedSet.add (r : RefusedSet) : ReservedReason → RefusedSet
  | .reservedOpcode => { r with reservedOpcode := true }
  | .nonzeroReservedField => { r with nonzeroReservedField := true }

/-- The environment's side of the interface. The MODEL's own, no hardware state (R216; log entries 7, 8, 9). -/
structure Env where
  /-- requests waiting at the direct operation interface (R215), oldest first -/
  pending : List Issue
  /-- how many main-loop iterations have ended: selects the pin levels of the current one (R30, R199, R212) -/
  draws : Nat
  /-- the pattern the combinational decoder gave when its input was last driven directly (R150) -/
  decoded : Pattern
deriving DecidableEq, Repr

/-- The state of a model instance. -/
structure State where
  /-- the parameters of the instance (R5): no operation writes them (R34) -/
  params : Params
  /-- the hardware registers (R20), TICK as wide as N asks (R27) -/
  regs : Regs (wTick params.ticksPerSecond)
  /-- the mark FAULT (R32) -/
  FAULT : FaultSet
  /-- the mark REFUSED (R32) -/
  REFUSED : RefusedSet
  /-- the environment's side of the interface -/
  env : Env
deriving DecidableEq, Repr

/-- Why a step stops. -/
inductive Fault where
  /-- INVALID_STATE (R232), raised by SET whose written digits break Valid (R102) and by every other operation on a
  state that is not Valid (R100). `op` is the operation and `marked` the state before it with the mark added to
  FAULT: the information R232 records. Safe: the hardware goes on in a way the source leaves undefined. -/
  | invalidState (op : Instr) (marked : State)
  /-- an operation on a state whose FAULT set is not empty: the hardware state is unconstrained there, and no step is
  enabled (R8, R214, R234). Raised by every operation but SEGDEC and the reserved words. Safe. -/
  | faulted (op : Instr) (before : State)
deriving DecidableEq, Repr

/-- Why an instruction has no meaning. No operation of this model answers with it. -/
inductive Refusal where
  /-- not modelled yet, raised by exec's arm of that name only. Safe. -/
  | notModelled (mnemonic : String)
deriving DecidableEq, Repr

/-- The outcome of one operation. -/
abbrev Out := Host.Outcome State Fault Refusal

namespace State

/-- W_TICK of the state's instance (R27). -/
abbrev width (s : State) : Nat := wTick s.params.ticksPerSecond

/-- The state with other hardware registers. -/
def withRegs (s : State) (r : Regs s.width) : State := { s with regs := r }

/-- The state with INVALID_STATE added to FAULT (R232). -/
def markFault (s : State) : State := { s with FAULT := ⟨true⟩ }

/-- The state with a reason added to REFUSED (R233). -/
def markRefused (s : State) (reason : ReservedReason) : State := { s with REFUSED := s.REFUSED.add reason }

/-- The state with other waiting requests. -/
def withPending (s : State) (xs : List Issue) : State := { s with env := { s.env with pending := xs } }

/-- The draw of the pins after an operation: the next one where it `ends` a main-loop iteration (R199, R212). -/
def countDraw (s : State) (ends : Bool) : State :=
  { s with env := { s.env with draws := if ends then s.env.draws + 1 else s.env.draws } }

/-- The state in which the combinational decoder last showed `p`. -/
def withDecoded (s : State) (p : Pattern) : State := { s with env := { s.env with decoded := p } }

/-- The machine right after reset (R33, R260): 00:00:00, 24h mode, every other register 0, the marks empty, at the
default parameters (log entry 4). The three fields of `env` are the model's own; their values are DESIGN CHOICES
(log entry 5). -/
def reset : State where
  params := defaultParams
  regs := { HT := 0, HU := 0, MT := 0, MU := 0, ST := 0, SU := 0, FMT24 := true, CUR := 0, TICK := 0, PHASE := 0,
            SEG := 0, DSEL := 0 }
  FAULT := ⟨false⟩
  REFUSED := ⟨false, false⟩
  env := { pending := [], draws := 0, decoded := 0 }

end State
end Sys2Proof.Machine
end

