-- ==== Sys2Proof/Machine/Flags.lean ====
section
/-! DEFINITION. FMT24, the only flag (10_state.md R23), and what it decides: the conversion of the hour between the
formats and the bounds of the hour (R21). The flag is written by TOGGLE_FORMAT only. -/

namespace Sys2Proof.Machine

/-- `FMT24 <- 1 - FMT24` (R103). -/
def flipFormat (fmt24 : Bool) : Bool := !fmt24

/-- 24h to 12h (R103): 0 becomes 12, 13..23 subtract 12, 1..12 are unchanged. -/
def hourTo12 (h : Nat) : Nat := if h = 0 then 12 else if 13 ≤ h then h - 12 else h

/-- 12h to 24h (R103, as implemented: C8): 12 becomes 0, otherwise `(h mod 12) + 12`. -/
def hourTo24 (h : Nat) : Nat := if h = 12 then 0 else h % 12 + 12

/-- The hour in the other format's convention, from the format the flag says (R103). -/
def convertHour (fmt24 : Bool) (h : Nat) : Nat := if fmt24 then hourTo12 h else hourTo24 h

/-- Items 2 and 3 of Valid (R21): 0..23 in 24h mode, 1..12 in 12h mode. -/
abbrev HourInFormat (fmt24 : Bool) (h : Nat) : Prop := (fmt24 = true → h ≤ 23) ∧ (fmt24 = false → 1 ≤ h ∧ h ≤ 12)

end Sys2Proof.Machine
end

