-- ==== Sys2Proof/Machine/Operands.lean ====
section
/-! DEFINITION. The operand forms (30_encoding.md R72 to R75, R79): the six digit fields of SET, the snapshot of the
action lines of STEP, the packed TimeValue (10_state.md R24), and how pins feed the lines (44_input_controller.md R199). -/

namespace Sys2Proof.Machine

variable {W : Nat}

/-- The six SET fields go straight to the six digit registers (R79, R102); nothing else is written. -/
def Regs.writeDigits (r : Regs W) (ht : BitVec 2) (hu : BitVec 4) (mt : BitVec 3) (mu : BitVec 4) (st : BitVec 3)
    (su : BitVec 4) : Regs W :=
  { r with HT := ht, HU := hu, MT := mt, MU := mu, ST := st, SU := su }

/-- The packed TimeValue of the registers, `{HT, HU, MT, MU, ST, SU}` from high to low (R24). -/
def Regs.timeWord (r : Regs W) : TimeWord := r.HT ++ r.HU ++ r.MT ++ r.MU ++ r.ST ++ r.SU

/-- The level of action line `k` in a snapshot; line `k` belongs to poll phase `k` (R79, R190). -/
def lineLevel (btn : Lines) (k : Nat) : Bool := btn.getLsbD k

/-- A line is asserted when it reads 0 (R190). -/
def asserted (level : Bool) : Bool := !level

/-- The action lines that four physical pins give through a pin map: line `k` reads pin `m k` (R199). Two lines on one
pin read the same level. -/
def linesOfPins (m : Fin 5 → Fin 4) (pins : BitVec 4) : Lines :=
  BitVec.ofBool (pins.getLsbD (m 4)) ++ BitVec.ofBool (pins.getLsbD (m 3)) ++ BitVec.ofBool (pins.getLsbD (m 2)) ++
    BitVec.ofBool (pins.getLsbD (m 1)) ++ BitVec.ofBool (pins.getLsbD (m 0))

/-- The action lines at the steps the sequencer takes by itself in the n-th iteration: a free value (R30, R199; log
entry 8). -/
def drawnLines (n : Nat) : Lines := linesOfPins Config.actionPinMap (Config.pinLevels n)

end Sys2Proof.Machine
end

