-- ==== Sys2Proof/Machine/Ops.lean ====
section
/-! DEFINITION. The operations that the meanings share: the combined values (00_scope.md R9), Valid (10_state.md R21),
the slot view (R25), `delay` (R8), and the two model outcomes, fault and refusal (60_exceptions.md R232, R233).
The hardware takes no exception and has no trap entry or return (R230, R237, R238), so raising a fault and recording
a refusal are all there is to share. -/

namespace Sys2Proof.Machine

variable {W : Nat}

/-- The combined hour H (R9). -/
def Regs.hour (r : Regs W) : Nat := 10 * r.HT.toNat + r.HU.toNat

/-- The combined minute M (R9). -/
def Regs.minute (r : Regs W) : Nat := 10 * r.MT.toNat + r.MU.toNat

/-- The combined second S (R9). -/
def Regs.second (r : Regs W) : Nat := 10 * r.ST.toNat + r.SU.toNat

/-- `setH(h)` of R9, for `h ≤ 29`. -/
def Regs.setH (r : Regs W) (h : Nat) : Regs W := { r with HT := BitVec.ofNat 2 (h / 10), HU := BitVec.ofNat 4 (h % 10) }

/-- Item 1 of Valid (R21): the digit ranges. -/
abbrev Regs.DigitsInRange (r : Regs W) : Prop :=
  r.HT.toNat ≤ 2 ∧ r.HU.toNat ≤ 9 ∧ r.MT.toNat ≤ 5 ∧ r.MU.toNat ≤ 9 ∧ r.ST.toNat ≤ 5 ∧ r.SU.toNat ≤ 9

/-- Item 5 of Valid (R21): the counters. `TICK ≤ N - 1` with `N ≥ 1` is `TICK < N`, which no state meets for the
illegal N = 0. -/
abbrev Regs.CountersInRange (p : Params) (r : Regs W) : Prop :=
  r.CUR.toNat ≤ 5 ∧ r.TICK.toNat < p.ticksPerSecond ∧ r.PHASE.toNat ≤ 5

/-- The validity invariant `Valid(s)` (R21). Item 4 follows from item 1. -/
abbrev Regs.Valid (p : Params) (r : Regs W) : Prop :=
  r.DigitsInRange ∧ HourInFormat r.FMT24 r.hour ∧ r.CountersInRange p

/-- `D[k]`, the digit in display slot `k` (R25), zero-extended to 4 bits. Slots are 0..5: the values 6 and 7 of a
cursor are excluded by Valid, which every reader checks first (log entry 13). -/
def Regs.slotDigit (r : Regs W) (k : BitVec 3) : Digit :=
  match k.toNat with
  | 0 => r.SU
  | 1 => r.ST.setWidth 4
  | 2 => r.MU
  | 3 => r.MT.setWidth 4
  | 4 => r.HU
  | _ => r.HT.setWidth 4

/-- `onehot6(k)` (R8). -/
def onehot6 (k : BitVec 3) : BitVec 6 := 1#6 <<< k.toNat

/-- `(v + 1) mod 6`, the advance of CUR (R161) and of PHASE (R211). -/
def next6 (v : BitVec 3) : BitVec 3 := BitVec.ofNat 3 ((v.toNat + 1) % 6)

/-- `delay(ms)` (R8, R274): changes no state, takes no step and cannot fail, for every duration. -/
def delay (_ms : Nat) (r : Regs W) : Regs W := r

/-- `raise Fault(INVALID_STATE)` (R232): the operation has no further effect. Recorded are the operation and the state
before it, in which FAULT now holds the reason (log entry 1). -/
def raiseInvalidState (op : Instr) (s : State) : Out := .fault (.invalidState op s.markFault)

/-- `refuse(reason)` (R233): the reason joins REFUSED and no hardware state changes (log entry 2). -/
def refuse (reason : ReservedReason) (s : State) : Out := .next (s.markRefused reason)

/-- An operation is enabled in a state whose FAULT set is empty (R214); elsewhere the model says nothing (R234). -/
def whenEnabled (op : Instr) (s : State) (k : Out) : Out := if s.FAULT = ⟨false⟩ then k else .fault (.faulted op s)

/-- The registers an operation leaves behind, if they are Valid there; the fault of R102 otherwise. -/
def finishValid (op : Instr) (s : State) (r : Regs s.width) : Out :=
  if r.Valid s.params then .next (s.withRegs r) else raiseInvalidState op s

/-- An operation that begins with `require_valid()` (R100) and then has the register effect `f`. -/
def guarded (op : Instr) (s : State) (f : Params → Regs s.width → Regs s.width) : Out :=
  whenEnabled op s (if s.regs.Valid s.params then .next (s.withRegs (f s.params s.regs)) else raiseInvalidState op s)

end Sys2Proof.Machine
end

