-- ==== Sys2Proof/Machine/Reserved.lean ====
section
/-! DEFINITION. The two "(reserved)" rows of the opcode map (30_encoding.md R78): executing such a word records the
refusal RESERVED_OPCODE and changes no hardware state, not even PHASE (60_exceptions.md R233). It is not executed, so it
can raise no fault, in any state (R236). -/

namespace Sys2Proof.Machine

/-- A word with OP 0xA or 0xB (R78). -/
def execReservedAB (s : State) : Out := refuse .reservedOpcode s

/-- A word with OP 0xC to 0xF (R78). -/
def execReservedCF (s : State) : Out := refuse .reservedOpcode s

end Sys2Proof.Machine
end

