-- ==== Sys2Proof/Machine/SegmentDecoder.lean ====
section
/-! DEFINITION. seven_segment_decoder (42_segment_decoder.md R150 to R153): one pure function for all six slots, and
SEGDEC, the decoder with its input driven directly (log entry 9). -/

namespace Sys2Proof.Machine

/-- `decode(d)` (R150): the table's pattern for 0..9, all segments off for 10..15. -/
def segmentPattern (p : Params) (d : Digit) : Pattern := if h : d.toNat < 10 then p.segTable[d.toNat] else 0#7

/-- SEGDEC (R150): combinational and stateless. It checks nothing and writes no register; the pattern it gives is
kept in the model's own field `decoded`, where a claim can read it (log entry 9). -/
def execSegdec (d : Digit) (s : State) : Out := .next (s.withDecoded (segmentPattern s.params d))

end Sys2Proof.Machine
end

