-- ==== Sys2Proof/Machine/TimeKeeper.lean ====
section
/-! DEFINITION. BCD_time_keeper (41_time_model.md R100 to R109): the register effect of each operation, then its
meaning. The effects are the pseudocode of the rules without `require_valid()`, which `guarded` adds (log entry 12). -/

namespace Sys2Proof.Machine

variable {W : Nat}

/-- TOGGLE_FORMAT's effect (R103). -/
def toggleFormat (r : Regs W) : Regs W := { r.setH (convertHour r.FMT24 r.hour) with FMT24 := flipFormat r.FMT24 }

/-- INC_MINUTE's effect (R104): 59 wraps to 00 with no hour carry. -/
def incMinute (r : Regs W) : Regs W :=
  if r.MU = 9 then { r with MU := 0, MT := if r.MT = 5 then 0 else r.MT + 1 } else { r with MU := r.MU + 1 }

/-- DEC_MINUTE's effect (R105, C4): 00 wraps to 59 with no hour borrow. -/
def decMinute (r : Regs W) : Regs W :=
  if r.MU = 0 then { r with MU := 9, MT := if r.MT = 0 then 5 else r.MT - 1 } else { r with MU := r.MU - 1 }

/-- The first statement of `hour_inc()` (R106): units + 1 with carry to the tens at 10. -/
def hourCarry (r : Regs W) : Regs W :=
  if r.HU = 9 then { r with HU := 0, HT := r.HT + 1 } else { r with HU := r.HU + 1 }

/-- The two wraps of `hour_inc()` (R106): 24 resets to 0 in 24h mode, 13 to 1 in 12h mode (D10). -/
def hourWrap (r : Regs W) : Regs W :=
  if r.FMT24 = true ∧ 24 ≤ r.hour then r.setH 0
  else if r.FMT24 = false ∧ 13 ≤ r.hour then r.setH 1
  else r

/-- `hour_inc()` (R106). -/
def hourInc (r : Regs W) : Regs W := hourWrap (hourCarry r)

/-- DEC_HOUR's effect (R108, C5). -/
def decHour (r : Regs W) : Regs W :=
  if r.FMT24 = true ∧ r.hour = 0 then r.setH 23
  else if r.FMT24 = false ∧ r.hour = 1 then r.setH 12
  else if r.HU = 0 then { r with HU := 9, HT := r.HT - 1 }
  else { r with HU := r.HU - 1 }

/-- The carry of ADVANCE_SECOND out of the seconds (R109): one minute more, 59 carries into the hour. -/
def carryMinute (r : Regs W) : Regs W :=
  if r.MU.toNat < 9 then { r with MU := r.MU + 1 }
  else if r.MT.toNat < 5 then { r with MU := 0, MT := r.MT + 1 }
  else hourInc { r with MU := 0, MT := 0 }

/-- ADVANCE_SECOND's effect (R109): the full ripple carry. -/
def advanceSecond (r : Regs W) : Regs W :=
  if r.SU.toNat < 9 then { r with SU := r.SU + 1 }
  else if r.ST.toNat < 5 then { r with SU := 0, ST := r.ST + 1 }
  else carryMinute { r with SU := 0, ST := 0 }

/-- SET (R102): writes the six digits whatever they were; faults if the written state is not Valid. -/
def execSet (ht : BitVec 2) (hu : BitVec 4) (mt : BitVec 3) (mu : BitVec 4) (st : BitVec 3) (su : BitVec 4)
    (s : State) : Out :=
  whenEnabled (.set ht hu mt mu st su) s
    (finishValid (.set ht hu mt mu st su) s (s.regs.writeDigits ht hu mt mu st su))

/-- TOGGLE_FORMAT (R103). -/
def execToggleFormat (s : State) : Out := guarded .toggleFormat s (fun _ => toggleFormat)

/-- INC_MINUTE (R104). -/
def execIncMinute (s : State) : Out := guarded .incMinute s (fun _ => incMinute)

/-- DEC_MINUTE (R105). -/
def execDecMinute (s : State) : Out := guarded .decMinute s (fun _ => decMinute)

/-- INC_HOUR (R107). -/
def execIncHour (s : State) : Out := guarded .incHour s (fun _ => hourInc)

/-- DEC_HOUR (R108). -/
def execDecHour (s : State) : Out := guarded .decHour s (fun _ => decHour)

/-- ADVANCE_SECOND (R109). -/
def execAdvanceSecond (s : State) : Out := guarded .advanceSecond s (fun _ => advanceSecond)

end Sys2Proof.Machine
end

