-- ==== Sys2Proof/Machine/Display.lean ====
section
/-! DEFINITION. multiplexed_display_driver and tick_accumulator_to_second_advance (43_display_multiplexer.md R160 to
R170): REFRESH, in the six steps of R161. -/

namespace Sys2Proof.Machine

variable {W : Nat}

/-- Step 1 of R161: every segment and digit-select line off. Not visible after the operation (R165, D27). -/
def clearOutputs (r : Regs W) : Regs W := { r with SEG := 0, DSEL := 0 }

/-- Steps 2 and 3 of R161: read the digit of the slot at the cursor, enable its line, drive its pattern. -/
def driveSlot (p : Params) (r : Regs W) : Regs W :=
  { r with DSEL := onehot6 r.CUR, SEG := segmentPattern p (r.slotDigit r.CUR) }

/-- Step 4 of R161: advance the cursor. -/
def advanceCursor (r : Regs W) : Regs W := { r with CUR := next6 r.CUR }

/-- Steps 1 to 5 of R161: show one slot, advance the cursor, settle. -/
def showSlot (p : Params) (r : Regs W) : Regs W := delay p.delayRefreshMs (advanceCursor (driveSlot p (clearOutputs r)))

/-- Step 6 of R161, the tick accumulator (R166): the N-th count advances one second and restarts the count. -/
def countTick (p : Params) (r : Regs W) : Regs W :=
  if r.TICK.toNat + 1 = p.ticksPerSecond then { advanceSecond r with TICK := 0 } else { r with TICK := r.TICK + 1 }

/-- REFRESH's effect (R161): the slot is read before the tick (R167). -/
def refresh (p : Params) (r : Regs W) : Regs W := countTick p (showSlot p r)

/-- REFRESH (R161). -/
def execRefresh (s : State) : Out := guarded .refresh s refresh

end Sys2Proof.Machine
end

