-- ==== Sys2Proof/Machine/Input.lean ====
section
/-! DEFINITION. button_debouncer_with_edge_detector (44_input_controller.md R190 to R199): level-triggered polls of the
five action lines, each fired action followed by its delay. There is no latch and no edge detector (R198, C3). -/

namespace Sys2Proof.Machine

variable {W : Nat}

/-- The combined hour `P_HOURUP_PRECHECK` names (R5). -/
def precheckHour : HourUpPrecheck → Nat
  | .at24 => 24
  | .at23 => 23

/-- HOUR_UP_ACTION's effect (R195): the pre-check, then `hour_inc()`. -/
def hourUp (p : Params) (r : Regs W) : Regs W :=
  hourInc (if precheckHour p.hourUpPrecheck ≤ r.hour then r.setH 0 else r)

/-- HOUR_UP_ACTION (R195), also directly invocable. -/
def execHourUpAction (s : State) : Out := guarded .hourUpAction s hourUp

/-- Action `k` with its post-action delay, from the table of R190 (R192 to R196). Poll phases are 0..4 (log entry 13). -/
def action (p : Params) (k : Nat) (r : Regs W) : Regs W :=
  match k with
  | 0 => delay p.delayMinorMs (toggleFormat r)
  | 1 => delay p.delayMinorMs (incMinute r)
  | 2 => delay p.delayMinorMs (decMinute r)
  | 3 => delay p.delayHourMs (hourUp p r)
  | _ => delay p.delayHourMs (decHour r)

/-- `poll(k, level)` (R191): an asserted line fires its action; otherwise nothing happens. -/
def poll (p : Params) (k : Nat) (level : Bool) (r : Regs W) : Regs W := if asserted level then action p k r else r

end Sys2Proof.Machine
end

