-- ==== Sys2Proof/Machine/Sequencer.lean ====
section
/-! DEFINITION. The sequencer (45_main_loop.md R210 to R216): STEP runs the phase PHASE names, then advances PHASE. -/

namespace Sys2Proof.Machine

variable {W : Nat}

/-- The work of the current phase (R211): phases 0..4 poll their own line, phase 5 is REFRESH and reads no line. -/
def runPhase (btn : Lines) (p : Params) (r : Regs W) : Regs W :=
  if r.PHASE.toNat ≤ 4 then poll p r.PHASE.toNat (lineLevel btn r.PHASE.toNat) r else refresh p r

/-- `PHASE <- (p + 1) mod 6` with `p` the phase at the start of the step (R211). -/
def sequencerStep (btn : Lines) (p : Params) (r : Regs W) : Regs W := { runPhase btn p r with PHASE := next6 r.PHASE }

/-- STEP (R211). -/
def execStep (btn : Lines) (s : State) : Out := guarded (.step btn) s (sequencerStep btn)

end Sys2Proof.Machine
end

