-- ==== Sys2Proof/Machine/Dispatch.lean ====
section
/-! DEFINITION. The dispatch: one arm per constructor of Instr. -/

namespace Sys2Proof.Machine

/-- The effect of one operation (30_encoding.md R76). -/
def exec (i : Instr) (s : State) : Host.Outcome State Fault Refusal :=
  match i with
  | .set ht hu mt mu st su => Sys2Proof.Machine.execSet ht hu mt mu st su s
  | .toggleFormat => Sys2Proof.Machine.execToggleFormat s
  | .incMinute => Sys2Proof.Machine.execIncMinute s
  | .decMinute => Sys2Proof.Machine.execDecMinute s
  | .incHour => Sys2Proof.Machine.execIncHour s
  | .decHour => Sys2Proof.Machine.execDecHour s
  | .advanceSecond => Sys2Proof.Machine.execAdvanceSecond s
  | .refresh => Sys2Proof.Machine.execRefresh s
  | .hourUpAction => Sys2Proof.Machine.execHourUpAction s
  | .step btn => Sys2Proof.Machine.execStep btn s
  | .segdec d => Sys2Proof.Machine.execSegdec d s
  | .reservedAB _ => Sys2Proof.Machine.execReservedAB s
  | .reservedCF _ => Sys2Proof.Machine.execReservedCF s

end Sys2Proof.Machine
end

