-- ==== Sys2Proof/Machine/Issue.lean ====
section
/-! DEFINITION. What a step of the core runs: the oldest request at the direct operation interface (45_main_loop.md
R215), or, with none waiting, the sequencer's own STEP (R210) with freely drawn lines (log entries 7 and 8). -/

namespace Sys2Proof.Machine

/-- The operation ends a main-loop iteration: STEP at PHASE 5 (R212). -/
def endsIteration (i : Instr) (phase : BitVec 3) : Bool :=
  match i with
  | .step _ => phase == 5
  | .set _ _ _ _ _ _ => false
  | .toggleFormat => false
  | .incMinute => false
  | .decMinute => false
  | .incHour => false
  | .decHour => false
  | .advanceSecond => false
  | .refresh => false
  | .hourUpAction => false
  | .segdec _ => false
  | .reservedAB _ => false
  | .reservedCF _ => false

/-- One operation, and with the end of an iteration the next draw of the pins: the draw holds for a whole iteration, so
that two lines on one pin read the same level at their own polls (R199). -/
def runOp (i : Instr) (s : State) : Out := exec i (s.countDraw (endsIteration i s.regs.PHASE))

/-- One presented item: decoding comes first, and a word that matches no row is refused, not executed (R236). -/
def runIssue (x : Issue) (s : State) : Out :=
  match decode x with
  | .ok i => runOp i s
  | .error reason => refuse reason s

/-- The sequencer's own step: STEP with the lines drawn for this iteration (R210, R30, R199). -/
def runAlone (s : State) : Out := runOp (.step (drawnLines s.env.draws)) s

/-- The oldest waiting request is taken and run; with none, the sequencer steps by itself. -/
def stepCore (s : State) : Out :=
  match s.env.pending with
  | x :: rest => runIssue x (s.withPending rest)
  | [] => runAlone s

/-- The state with an item placed before every waiting request. -/
def present (x : Issue) (s : State) : State := s.withPending (x :: s.env.pending)

end Sys2Proof.Machine
end

