-- ==== Sys2Proof/Machine/Step.lean ====
section
/-! DEFINITION. One step of the machine, and how a given operation becomes its next one. -/

namespace Sys2Proof.Machine

/-- One step (45_main_loop.md R211, R215). -/
def step (s : State) : Host.Outcome State Fault Refusal := stepCore s

/-- The state whose very next step runs the item of these bits. Bits that are no item of that width are not placed,
just as `decodeTableWord` answers none on them (log entries 7 and 10). -/
def State.withFetchWord (s : State) (nbits w : Nat) : State :=
  match issueOf nbits w with
  | some x => present x s
  | none => s

end Sys2Proof.Machine
end

