-- ==== Sys2Proof/Machine/Assembler.lean ====
section
/-! DEFINITION. The assembler's lines (30_encoding.md R81) and pseudo-instructions (R82), from text to operations.
A line is a list of characters. What R81 leaves open of spacing is in log entry 19. -/

namespace Sys2Proof.Machine

/-- The parts of a text between the characters that `sep` accepts; empty parts are kept. -/
def splitChars (sep : Char → Bool) : List Char → List (List Char)
  | [] => [[]]
  | c :: cs =>
    match splitChars sep cs with
    | [] => [[]]
    | p :: ps => if sep c then [] :: p :: ps else (c :: p) :: ps

/-- The words of a line: the comment from `;` on is dropped, spaces and tabs separate. -/
def lineWords (line : List Char) : List (List Char) :=
  (splitChars (fun c => c = ' ' || c = '\t') (line.takeWhile (fun c => !(c = ';')))).filter (fun w => !w.isEmpty)

/-- The value of a digit character in a base up to 16. -/
def digitValue (base : Nat) (c : Char) : Option Nat :=
  let n := c.toNat
  let v := if 48 ≤ n ∧ n ≤ 57 then n - 48 else if 65 ≤ n ∧ n ≤ 70 then n - 55 else if 97 ≤ n ∧ n ≤ 102 then n - 87 else 16
  if v < base then some v else none

/-- The value of digit characters, most significant first, after a value already read. -/
def digitsValue (base : Nat) : Nat → List Char → Option Nat
  | acc, [] => some acc
  | acc, c :: cs =>
    match digitValue base c with
    | some v => digitsValue base (acc * base + v) cs
    | none => none

/-- An unsigned number: decimal, or hexadecimal after `0x`, or binary after `0b` (R7). -/
def parseNumber : List Char → Option Nat
  | '0' :: 'x' :: c :: cs => digitsValue 16 0 (c :: cs)
  | '0' :: 'b' :: c :: cs => digitsValue 2 0 (c :: cs)
  | [] => none
  | c :: cs => digitsValue 10 0 (c :: cs)

/-- The operand of STEP and ITERATE: `0b` and five binary digits, the leftmost BTN_N[4] (R81). -/
def parseLines (w : List Char) : Option Lines :=
  match w with
  | ['0', 'b', b4, b3, b2, b1, b0] => (digitsValue 2 0 [b4, b3, b2, b1, b0]).map (BitVec.ofNat 5)
  | _ => none

/-- `hh:mm:ss`: six decimal digits, each in its field's range (R81, R20). -/
def parseClock (w : List Char) : Option Instr :=
  match w with
  | [a, b, ':', c, d, ':', e, f] =>
    match digitValue 10 a, digitValue 10 b, digitValue 10 c, digitValue 10 d, digitValue 10 e, digitValue 10 f with
    | some ht, some hu, some mt, some mu, some st, some su =>
      if ht ≤ 2 ∧ mt ≤ 5 ∧ st ≤ 5 then
        some (.set (BitVec.ofNat 2 ht) (BitVec.ofNat 4 hu) (BitVec.ofNat 3 mt) (BitVec.ofNat 4 mu)
          (BitVec.ofNat 3 st) (BitVec.ofNat 4 su))
      else none
    | _, _, _, _, _, _ => none
  | _ => none

/-- `ht,hu,mt,mu,st,su`: six numbers, each fitting its field's width 2, 4, 3, 4, 3, 4 (R81). -/
def parseFields (w : List Char) : Option Instr :=
  match (splitChars (fun c => c = ',') w).map parseNumber with
  | [some ht, some hu, some mt, some mu, some st, some su] =>
    if ht < 4 ∧ hu < 16 ∧ mt < 8 ∧ mu < 16 ∧ st < 8 ∧ su < 16 then
      some (.set (BitVec.ofNat 2 ht) (BitVec.ofNat 4 hu) (BitVec.ofNat 3 mt) (BitVec.ofNat 4 mu)
        (BitVec.ofNat 3 st) (BitVec.ofNat 4 su))
    else none
  | _ => none

/-- The format Z mnemonics; case matters (R81). -/
def zMnemonics : List (List Char × Instr) :=
  [("TOGGLE_FORMAT".toList, .toggleFormat), ("INC_MINUTE".toList, .incMinute), ("DEC_MINUTE".toList, .decMinute),
   ("INC_HOUR".toList, .incHour), ("DEC_HOUR".toList, .decHour), ("ADVANCE_SECOND".toList, .advanceSecond),
   ("REFRESH".toList, .refresh), ("HOUR_UP_ACTION".toList, .hourUpAction)]

/-- ITERATE: six STEPs with the lines held (R82). -/
def iterateOps (btn : Lines) : List Instr := List.replicate 6 (.step btn)

/-- A mnemonic with its operand: the operations it stands for (R81, R82). STEP and ITERATE alone assert no line. -/
def assembleOp (words : List (List Char)) : Option (List Instr) :=
  match words with
  | [m] =>
    if m = "STEP".toList then some [.step 0b11111#5]
    else if m = "ITERATE".toList then some (iterateOps 0b11111#5)
    else (zMnemonics.lookup m).map (fun i => [i])
  | [m, x] =>
    if m = "STEP".toList then (parseLines x).map (fun b => [.step b])
    else if m = "ITERATE".toList then (parseLines x).map iterateOps
    else if m = "SET".toList then ((parseClock x).orElse (fun _ => parseFields x)).map (fun i => [i])
    else none
  | _ => none

/-- `n` copies of a list of operations, one after the other. -/
def repeatOps : Nat → List Instr → List Instr
  | 0, _ => []
  | n + 1, is => is ++ repeatOps n is

/-- A line (R81, R82): nothing, a mnemonic with its operand, or `<mnemonic> * n` with `n ≥ 1`. -/
def assembleLine (line : List Char) : Option (List Instr) :=
  let ws := lineWords line
  match ws.reverse with
  | [] => some []
  | n :: ['*'] :: rest =>
    match parseNumber n, assembleOp rest.reverse with
    | some k, some is => if 1 ≤ k then some (repeatOps k is) else none
    | _, _ => none
  | _ => assembleOp ws

/-- A program, line by line; one bad line rejects it. -/
def assemble : List (List Char) → Option (List Instr)
  | [] => some []
  | l :: ls =>
    match assembleLine l, assemble ls with
    | some is, some js => some (is ++ js)
    | _, _ => none

end Sys2Proof.Machine
end

