-- ==== Sys2Proof/Safety.lean ====
section
/-! DEFINITION. What counts as a safe state and a safe run, in the terms claims use (10_state.md R21; 60_exceptions.md
R232, R234). -/

namespace Sys2Proof.Machine

variable {W : Nat}

/-- DSEL holds a legal value (R20): 0 or one bit `k` with `k ≤ 5`. -/
abbrev Regs.SelectLegal (r : Regs W) : Prop := r.DSEL = 0#6 ∨ ∃ k : Fin 6, r.DSEL = 1#6 <<< k.val

/-- Both marks are empty: a claim about the core says nothing about any other state (R232, R234). -/
abbrev State.Unmarked (s : State) : Prop := s.FAULT = ⟨false⟩ ∧ s.REFUSED = ⟨false, false⟩

/-- The premise of every claim about the core (R232, R234): both marks are empty and the registers are Valid. -/
abbrev State.Sound (s : State) : Prop := s.Unmarked ∧ s.regs.Valid s.params

/-- What every step of the model keeps: FAULT empty, the registers Valid (R21), the digit-select output legal (R20). A
refused word keeps it too, because it changes no hardware state (R233). -/
abbrev State.Inv (s : State) : Prop := s.FAULT = ⟨false⟩ ∧ s.regs.Valid s.params ∧ s.regs.SelectLegal

/-- A finite run of operations through the direct interface (R215), stopping at the first that gives no next state. -/
def execAll : List Instr → State → Out
  | [], s => .next s
  | i :: is, s =>
    match exec i s with
    | .next t => execAll is t
    | .fault f => .fault f
    | .refused f => .refused f

/-- Seconds since 00:00:00, or since 12:00:00 in 12h mode: the time as one number. -/
def Regs.clock (r : Regs W) : Nat :=
  3600 * (if r.FMT24 then r.hour else r.hour % 12) + 60 * r.minute + r.second

/-- The length of the clock's cycle: a day in 24h mode, half a day in 12h mode (R112). -/
def Regs.cycle (r : Regs W) : Nat := if r.FMT24 then 86400 else 43200

/-- The registers with the time `c` of `Regs.clock`, in the format the flag says. -/
def Regs.setClock (r : Regs W) (c : Nat) : Regs W :=
  let h := c / 3600
  let h' := if r.FMT24 then h else if h = 0 then 12 else h
  let m := c / 60 % 60
  let t := c % 60
  r.writeDigits (BitVec.ofNat 2 (h' / 10)) (BitVec.ofNat 4 (h' % 10)) (BitVec.ofNat 3 (m / 10)) (BitVec.ofNat 4 (m % 10))
    (BitVec.ofNat 3 (t / 10)) (BitVec.ofNat 4 (t % 10))

/-- The operations that begin with `require_valid()` (R100, R211). -/
def checksState : Instr → Bool
  | .toggleFormat => true
  | .incMinute => true
  | .decMinute => true
  | .incHour => true
  | .decHour => true
  | .advanceSecond => true
  | .refresh => true
  | .hourUpAction => true
  | .step _ => true
  | .set _ _ _ _ _ _ => false
  | .segdec _ => false
  | .reservedAB _ => false
  | .reservedCF _ => false

/-- The operation keeps Valid and faults on no Valid state (R110, R169): on every sound state it completes, in a state
whose FAULT is empty and whose registers are Valid. -/
def KeepsValid (i : Instr) : Prop :=
  ∀ s : State, s.Sound → ∃ t, exec i s = .next t ∧ t.FAULT = ⟨false⟩ ∧ t.regs.Valid t.params

/-- A finite run of the machine's own steps, stopping at the first that gives no next state. -/
def stepMany : Nat → State → Out
  | 0, s => .next s
  | n + 1, s =>
    match step s with
    | .next t => stepMany n t
    | .fault f => .fault f
    | .refused f => .refused f

/-- The operations of one main-loop iteration with the lines held (R212, R213): the asserted actions in phase order,
then one REFRESH. -/
def iterationOps (btn : Lines) : List Instr :=
  (if btn.getLsbD 0 then [] else [.toggleFormat]) ++ (if btn.getLsbD 1 then [] else [.incMinute]) ++
    (if btn.getLsbD 2 then [] else [.decMinute]) ++ (if btn.getLsbD 3 then [] else [.hourUpAction]) ++
    (if btn.getLsbD 4 then [] else [.decHour]) ++ [.refresh]

/-- The same machine with other delays (R276). -/
def State.withDelays (s : State) (refreshMs minorMs hourMs : Nat) : State :=
  { s with params := { s.params with delayRefreshMs := refreshMs, delayMinorMs := minorMs, delayHourMs := hourMs }
           regs := s.regs }

end Sys2Proof.Machine
end

