-- ==== Sys2Proof/Certificates/Slice0/Obligations.lean ====
section
/-! DEFINITION. The statements of this model. A statement about the core takes "FAULT and REFUSED are
empty" (`State.Unmarked`), and where it speaks of a result "and the registers are Valid" (`State.Sound`), as its premise, as
60_exceptions.md R232 and R234 ask; the statements about the marks themselves and about what a step adds around an
operation speak of every state of the model. The parameters of the instance (N, the segment
table, the pre-check, the delays) are whatever `s.params` says, so each holds for every instance. -/

open Sys2Proof Sys2Proof.Machine

/-! ### Encoding -/

/-- Decoding the encoding of a well-formed operation gives it back, with every operand (30_encoding.md, formats and
opcode map). The encoding is the spec's own (D18). -/
def Obligations.EncodeThenDecode : Prop :=
  ∀ i : Instr, i.wellFormed = true → decode (encode i) = .ok i

/-- Whatever decodes is the encoding of what it decodes to: no two items stand for one operation. -/
def Obligations.DecodeThenEncode : Prop :=
  ∀ (x : Issue) (i : Instr), decode x = .ok i → encode i = x ∧ i.wellFormed = true

/-- The rows of the opcode map do not overlap; a word decodes to an operation exactly of the row it lies in, and is
rejected, as NONZERO_RESERVED_FIELD, exactly when it lies in none. That OP 0xA to 0xF decode to the operation of a
"(reserved)" row, so that NONZERO_RESERVED_FIELD is the only rejection, is the model's choice, log entry 15: R77 answers
Reserved(RESERVED_OPCODE) there. -/
def Obligations.OpcodeMapIsUnambiguous : Prop :=
  ∀ w : OpWord,
    (∀ a ∈ opRows, ∀ b ∈ opRows, a.holds w = true → b.holds w = true → a = b) ∧
    (∀ i, decodeOp w = .ok i → ∃ row ∈ opRows, rowOf i = some row ∧ row.holds w = true) ∧
    (∀ e, decodeOp w = .error e → e = .nonzeroReservedField ∧ ∀ row ∈ opRows, row.holds w = false)

/-- The packed TimeValue has its digits at bits 19:18, 17:14, 13:11, 10:7, 6:4 and 3:0, and is SET's payload
(10_state.md R24; the packing is the spec's decision D3). -/
def Obligations.PackedTimeFields : Prop :=
  ∀ (W : Nat) (r : Regs W),
    r.timeWord.toNat = r.HT.toNat * 2 ^ 18 + r.HU.toNat * 2 ^ 14 + r.MT.toNat * 2 ^ 11 + r.MU.toNat * 2 ^ 7 +
      r.ST.toNat * 2 ^ 4 + r.SU.toNat ∧
    encode (.set r.HT r.HU r.MT r.MU r.ST r.SU) = .opWord (BitVec.ofNat 24 r.timeWord.toNat)

/-- Seven words and one digit, written out from the tables of R72 to R76 (95_test_vectors.md 2.10), decode to their
operations, and two words are rejected. The two reserved words decode to the operation of their "(reserved)" row by log entry
15, where 2.10 says Reserved(RESERVED_OPCODE); that 8 bits name the decoder's digit is log entry 10. -/
def Obligations.WrittenWordsDecode : Prop :=
  decodeTableWord 24 0b000010001110110011011001 = some (.set 2 3 5 9 5 9) ∧
  decodeTableWord 24 0b000100000000000000000000 = some .toggleFormat ∧
  decodeTableWord 24 0b011100000000000000000000 = some .refresh ∧
  decodeTableWord 24 0b100000000000000000000000 = some .hourUpAction ∧
  decodeTableWord 24 0b100100000000000000011111 = some (.step 0b11111) ∧
  decodeTableWord 24 0b100100000000000000100000 = none ∧
  decodeTableWord 24 0b000100000000000000000001 = none ∧
  decodeTableWord 24 0b101000000000000000000000 = some (.reservedAB 0xA00000) ∧
  decodeTableWord 24 0b111111111111111111111111 = some (.reservedCF 0xFFFFFF) ∧
  decodeTableWord 8 0b1100 = some (.segdec 12)

/-- Lines of the programs P1, P2, P5 of 95_test_vectors.md assemble to their words (30_encoding.md R81, R82; the syntax
is the spec's decision D25, spacing is log entry 19). -/
def Obligations.AssemblerLinesOfThePrograms : Prop :=
  (assembleLine "SET 23:59:58 ; P1".toList).map (List.map encode) = some [.opWord 0x08ECD8] ∧
  (assembleLine "SET 2,4,0,0,0,0".toList).map (List.map encode) = some [.opWord 0x090000] ∧
  (assembleLine "INC_HOUR * 11".toList).map (List.map encode) = some (List.replicate 11 (.opWord 0x400000)) ∧
  (assembleLine "ITERATE 0b01110".toList).map (List.map encode) = some (List.replicate 6 (.opWord 0x90000E)) ∧
  (assembleLine "STEP".toList).map (List.map encode) = some [.opWord 0x90001F] ∧
  assembleLine "SET 24:60:00".toList = none ∧
  assembleLine "refresh".toList = none

/-! ### Reset and stepping -/

/-- The reset state (10_state.md R33). The digits are the source's; FMT24, CUR, TICK, PHASE, SEG and DSEL are the spec's
decisions D4 to D8 (log entry 6); the parameters are the defaults of R5, the segment table that of R152 (log entry 4). -/
def Obligations.ResetRegisters : Prop :=
  State.reset.regs = { HT := 0, HU := 0, MT := 0, MU := 0, ST := 0, SU := 0, FMT24 := true, CUR := 0, TICK := 0,
                       PHASE := 0, SEG := 0, DSEL := 0 } ∧
  State.reset.FAULT = ⟨false⟩ ∧ State.reset.REFUSED = ⟨false, false⟩ ∧
  State.reset.params =
    { ticksPerSecond := 225, segTable := #v[0x3F, 0x06, 0x5B, 0x4F, 0x66, 0x6D, 0x7D, 0x07, 0x7F, 0x6F],
      hourUpPrecheck := .at24, delayRefreshMs := 1, delayMinorMs := 50, delayHourMs := 100 }

/-- The reset state meets the invariant that every step keeps, and the premise of the claims (R33). It rests on the reset
values that are the spec's decisions D4 to D8 (log entry 6) and on the default N (log entry 4). -/
def Obligations.ResetMeetsInvariant : Prop := State.reset.Inv ∧ State.reset.Sound

/-- A step runs the decoded operation: the oldest waiting item, taken from the queue (the queue is the model's own, log
entry 7). Where that operation is STEP at PHASE 5, which ends a main-loop iteration, the counter of the pin draws moves on
(log entry 8). -/
def Obligations.StepRunsWaitingOperation : Prop :=
  ∀ (s : State) (x : Issue) (rest : List Issue) (i : Instr), s.env.pending = x :: rest → decode x = .ok i →
    (¬ ((∃ b, i = .step b) ∧ s.regs.PHASE = 5) → step s = exec i { s with env := { s.env with pending := rest } }) ∧
    ((∃ b, i = .step b) → s.regs.PHASE = 5 →
      step s = exec i { s with env := { s.env with pending := rest, draws := s.env.draws + 1 } })

/-- With nothing waiting, the sequencer issues STEP by itself, with the lines drawn for the iteration (45_main_loop.md R210,
R215; the draw is free, and the next one holds from the end of the iteration on, log entry 8). -/
def Obligations.StepAloneIsTheSequencer : Prop :=
  ∀ s : State, s.env.pending = [] →
    (s.regs.PHASE ≠ 5 → step s = exec (.step (drawnLines s.env.draws)) s) ∧
    (s.regs.PHASE = 5 →
      step s = exec (.step (drawnLines s.env.draws)) { s with env := { s.env with draws := s.env.draws + 1 } })

/-- An item placed for the next step is the operation that step runs, at the very state it was placed in, but that STEP at
PHASE 5 moves the counter of the pin draws on (log entries 7 and 8). -/
def Obligations.PlacedWordRunsNext : Prop :=
  ∀ (s : State) (nbits w : Nat) (i : Instr), decodeTableWord nbits w = some i →
    (¬ ((∃ b, i = .step b) ∧ s.regs.PHASE = 5) → step (s.withFetchWord nbits w) = exec i s) ∧
    ((∃ b, i = .step b) → s.regs.PHASE = 5 →
      step (s.withFetchWord nbits w) = exec i { s with env := { s.env with draws := s.env.draws + 1 } })

/-! ### BCD_time_keeper -/

/-- SET writes the six digits whatever they were and nothing else, and faults, recording the operation and the state
before it, exactly when the written state is not Valid (41_time_model.md R102). The fault is the spec's decision D20; its
form is log entry 1. -/
def Obligations.SetOverwritesDigits : Prop :=
  ∀ (s : State) (ht : BitVec 2) (hu : BitVec 4) (mt : BitVec 3) (mu : BitVec 4) (st : BitVec 3) (su : BitVec 4),
    s.Unmarked →
    let r : Regs s.width := { s.regs with HT := ht, HU := hu, MT := mt, MU := mu, ST := st, SU := su }
    (r.Valid s.params → exec (.set ht hu mt mu st su) s = .next { s with regs := r }) ∧
    (¬ r.Valid s.params →
      exec (.set ht hu mt mu st su) s = .fault (.invalidState (.set ht hu mt mu st su) { s with FAULT := ⟨true⟩ }))

/-- TOGGLE_FORMAT (41_time_model.md R103): OP 0x1 in format Z; the hour converted to the other format, FMT24 inverted,
everything else unchanged; INVALID_STATE through `require_valid()` only. -/
def Obligations.ToggleFormatConverts : Prop :=
  decode (.opWord 0x100000) = .ok .toggleFormat ∧
  ∀ s : State, s.Unmarked →
    (s.regs.Valid s.params →
      let h := 10 * s.regs.HT.toNat + s.regs.HU.toNat
      let h2 := if s.regs.FMT24 = true then (if h = 0 then 12 else if 13 ≤ h then h - 12 else h)
                else (if h = 12 then 0 else h % 12 + 12)
      exec .toggleFormat s = .next { s with regs := { s.regs with HT := BitVec.ofNat 2 (h2 / 10),
                                                                  HU := BitVec.ofNat 4 (h2 % 10),
                                                                  FMT24 := !s.regs.FMT24 } }) ∧
    (¬ s.regs.Valid s.params → ∃ m, exec .toggleFormat s = .fault (.invalidState .toggleFormat m))

/-- INC_MINUTE and DEC_MINUTE step the minute modulo 60 and change nothing else: no hour carry or borrow, seconds and
TICK untouched (R104, R105; the spec's decision D11 and its conflict C4). -/
def Obligations.MinuteStepsModSixty : Prop :=
  ∀ s : State, s.Sound →
    let m := 10 * s.regs.MT.toNat + s.regs.MU.toNat
    let at_ (v : Nat) : State :=
      { s with regs := { s.regs with MT := BitVec.ofNat 3 (v / 10), MU := BitVec.ofNat 4 (v % 10) } }
    exec .incMinute s = .next (at_ ((m + 1) % 60)) ∧ exec .decMinute s = .next (at_ ((m + 59) % 60))

/-- INC_HOUR and DEC_HOUR step the hour modulo 24 in 24h mode and round 1..12 in 12h mode, and change nothing else
(R107, R108; the 12h wrap is the spec's decision D10, the target 23 its conflict C5). -/
def Obligations.HourStepsInFormat : Prop :=
  ∀ s : State, s.Sound →
    let h := 10 * s.regs.HT.toNat + s.regs.HU.toNat
    let at_ (v : Nat) : State :=
      { s with regs := { s.regs with HT := BitVec.ofNat 2 (v / 10), HU := BitVec.ofNat 4 (v % 10) } }
    exec .incHour s = .next (at_ (if s.regs.FMT24 = true then (h + 1) % 24 else h % 12 + 1)) ∧
    exec .decHour s = .next (at_ (if s.regs.FMT24 = true then (h + 23) % 24 else (h + 10) % 12 + 1))

/-- HOUR_UP_ACTION is INC_HOUR, but that with P_HOURUP_PRECHECK = 23 the hour 23 goes to 1
(44_input_controller.md R195; the two readings are the spec's decision D12). -/
def Obligations.HourUpActionPrecheck : Prop :=
  ∀ s : State, s.Sound →
    (¬ (s.params.hourUpPrecheck = .at23 ∧ s.regs.hour = 23) →
      ∃ t, exec .incHour s = .next t ∧ exec .hourUpAction s = .next t) ∧
    (s.params.hourUpPrecheck = .at23 → s.regs.hour = 23 →
      exec .hourUpAction s = .next { s with regs := { s.regs with HT := 0, HU := 1 } })

/-- ADVANCE_SECOND sets the time one second later in the day (half day in 12h mode) and changes nothing else
(R109; the 12h wrap is the spec's decisions D10 and D30). -/
def Obligations.AdvanceSecondAddsOne : Prop :=
  ∀ s : State, s.Sound →
    exec .advanceSecond s = .next { s with regs := s.regs.setClock ((s.regs.clock + 1) % s.regs.cycle) }

/-- n seconds later: the time n seconds on, for every n and every starting time (41_time_model.md R112). -/
def Obligations.ManySecondsAddUp : Prop :=
  ∀ (s : State) (n : Nat), s.Sound →
    execAll (List.replicate n .advanceSecond) s =
      .next { s with regs := s.regs.setClock ((s.regs.clock + n) % s.regs.cycle) }

/-- The full-day round trip (R112): 86400 seconds in 24h mode, 43200 in 12h mode, return to the state, and each Valid
time of the format is met exactly once on the way. -/
def Obligations.FullDayVisitsEachTimeOnce : Prop :=
  ∀ s : State, s.Sound →
    execAll (List.replicate s.regs.cycle .advanceSecond) s = .next s ∧
    ∀ (W : Nat) (r : Regs W), r.Valid s.params → r.FMT24 = s.regs.FMT24 →
      ∃! n, n < s.regs.cycle ∧
        ∃ t, execAll (List.replicate n .advanceSecond) s = .next t ∧ t.regs.timeWord = r.timeWord

/-- TOGGLE_FORMAT twice (R111): from 24h mode the hours 1..11 gain 12 and hour 12 becomes 0, the others return; from 12h
mode the state returns. -/
def Obligations.DoubleToggleTable : Prop :=
  ∀ s : State, s.Sound →
    let h := 10 * s.regs.HT.toNat + s.regs.HU.toNat
    let r := if h = 0 ∨ h = 12 then 0 else if h ≤ 11 then h + 12 else h
    (s.regs.FMT24 = true → execAll [.toggleFormat, .toggleFormat] s =
      .next { s with regs := { s.regs with HT := BitVec.ofNat 2 (r / 10), HU := BitVec.ofNat 4 (r % 10) } }) ∧
    (s.regs.FMT24 = false → execAll [.toggleFormat, .toggleFormat] s = .next s)

/-- INC_MINUTE then DEC_MINUTE, and DEC_MINUTE then INC_MINUTE, give the whole state back (R113). -/
def Obligations.MinuteRoundTrip : Prop :=
  ∀ s : State, s.Sound →
    execAll [.incMinute, .decMinute] s = .next s ∧ execAll [.decMinute, .incMinute] s = .next s

/-- The footprint of the family (R101): CUR, TICK, PHASE, SEG and DSEL are never written, only TOGGLE_FORMAT writes FMT24,
only the named registers change, no input is read, and the only other outcome is INVALID_STATE. -/
def Obligations.TimeKeeperFootprint : Prop :=
  ∀ (s : State) (i : Instr), s.Unmarked →
    ((∃ ht hu mt mu st su, i = .set ht hu mt mu st su) ∨ i = .toggleFormat ∨ i = .incMinute ∨ i = .decMinute ∨
      i = .incHour ∨ i = .decHour ∨ i = .advanceSecond) →
    (∃ m, exec i s = .fault (.invalidState i m)) ∨
    (∃ t, exec i s = .next t ∧
      t.params = s.params ∧ t.FAULT = s.FAULT ∧ t.REFUSED = s.REFUSED ∧ t.env = s.env ∧
      t.regs.CUR = s.regs.CUR ∧ t.regs.TICK.toNat = s.regs.TICK.toNat ∧ t.regs.PHASE = s.regs.PHASE ∧ t.regs.SEG = s.regs.SEG ∧
      t.regs.DSEL = s.regs.DSEL ∧
      (i ≠ .toggleFormat → t.regs.FMT24 = s.regs.FMT24) ∧
      (i = .incMinute ∨ i = .decMinute → t.regs.HT = s.regs.HT ∧ t.regs.HU = s.regs.HU) ∧
      (i = .toggleFormat ∨ i = .incHour ∨ i = .decHour → t.regs.MT = s.regs.MT ∧ t.regs.MU = s.regs.MU) ∧
      (i = .toggleFormat ∨ i = .incMinute ∨ i = .decMinute ∨ i = .incHour ∨ i = .decHour →
        t.regs.ST = s.regs.ST ∧ t.regs.SU = s.regs.SU) ∧
      ∀ e : Env, exec i { s with env := e } = .next { t with env := e })

/-! ### Decoder and display -/

/-- SEGDEC gives the table's pattern for 0..9 and all segments off for 10..15, in every state, and writes no register
(42_segment_decoder.md R150). The pattern is read in the model's own field `decoded` (log entry 9). -/
def Obligations.SegdecGivesPattern : Prop :=
  ∀ (s : State) (d : Digit),
    (∀ k : Fin 10, d.toNat = k.val →
      exec (.segdec d) s = .next { s with env := { s.env with decoded := s.params.segTable[k.val] } }) ∧
    (10 ≤ d.toNat → exec (.segdec d) s = .next { s with env := { s.env with decoded := 0b0000000 } })

/-- The default patterns (R152, which the spec marks as general knowledge; log entry 4) at reset. -/
def Obligations.DefaultPatterns : Prop :=
  (List.range 16).map (fun d => segmentPattern State.reset.params (BitVec.ofNat 4 d)) =
    [0x3F, 0x06, 0x5B, 0x4F, 0x66, 0x6D, 0x7D, 0x07, 0x7F, 0x6F, 0, 0, 0, 0, 0, 0]

/-- REFRESH, whole (43_display_multiplexer.md R161): the digit of the slot at the cursor, read before the tick, is driven
on its own select line; the cursor advances modulo 6; the N-th count advances one second and restarts the count; nothing
else changes. One indivisible change is the spec's decision D27. -/
def Obligations.RefreshWhole : Prop :=
  ∀ s : State, s.Sound →
    let r := s.regs
    let digit := [r.SU.toNat, r.ST.toNat, r.MU.toNat, r.MT.toNat, r.HU.toNat, r.HT.toNat].getD r.CUR.toNat 0
    let full := r.TICK.toNat + 1 = s.params.ticksPerSecond
    let timed := if full then r.setClock ((r.clock + 1) % r.cycle) else r
    exec .refresh s = .next { s with regs :=
      { timed with SEG := s.params.segTable.toList.getD digit 0,
                   DSEL := 1#6 <<< r.CUR.toNat,
                   CUR := BitVec.ofNat 3 ((r.CUR.toNat + 1) % 6),
                   TICK := if full then 0 else BitVec.ofNat _ (r.TICK.toNat + 1) } }

/-- There is one decoder for all slots (R153): the slot being shown does not change its result. Two REFRESHes of two states
with one segment table, each showing the digit d in its own slot, whichever slots those are, drive the same pattern, and it is
the decoder's for d. -/
def Obligations.OneDecoderForAllSlots : Prop :=
  ∀ (s s' : State) (d : Digit), s.Sound → s'.Sound → s'.params.segTable = s.params.segTable →
    d.toNat = [s.regs.SU.toNat, s.regs.ST.toNat, s.regs.MU.toNat, s.regs.MT.toNat, s.regs.HU.toNat,
      s.regs.HT.toNat].getD s.regs.CUR.toNat 0 →
    d.toNat = [s'.regs.SU.toNat, s'.regs.ST.toNat, s'.regs.MU.toNat, s'.regs.MT.toNat, s'.regs.HU.toNat,
      s'.regs.HT.toNat].getD s'.regs.CUR.toNat 0 →
    ∃ t t', exec .refresh s = .next t ∧ exec .refresh s' = .next t' ∧ t'.regs.SEG = t.regs.SEG ∧
      t.regs.SEG = segmentPattern s.params d

/-- SEGDEC is the display's own decoder (R150): run in any state with the same segment table, whatever its cursor, it gives
what REFRESH drives for that digit. It is read in the model's own field `decoded` (log entry 9). -/
def Obligations.SegdecIsTheDisplayDecoder : Prop :=
  ∀ (s s' : State) (d : Digit), s.Sound → s'.params.segTable = s.params.segTable →
    d.toNat = [s.regs.SU.toNat, s.regs.ST.toNat, s.regs.MU.toNat, s.regs.MT.toNat, s.regs.HU.toNat,
      s.regs.HT.toNat].getD s.regs.CUR.toNat 0 →
    ∃ t u, exec .refresh s = .next t ∧ exec (.segdec d) s' = .next u ∧ t.regs.SEG = u.env.decoded

/-- Scan coverage (R164): after n REFRESHes from cursor c the cursor is c + n modulo 6, and the last one lit slot
c + n - 1 modulo 6 and no other. -/
def Obligations.ScanVisitsSlotsInOrder : Prop :=
  ∀ (s : State) (n : Nat), s.Sound →
    ∃ t, execAll (List.replicate n .refresh) s = .next t ∧
      t.regs.CUR.toNat = (s.regs.CUR.toNat + n) % 6 ∧
      (1 ≤ n → t.regs.DSEL = 1#6 <<< ((s.regs.CUR.toNat + n - 1) % 6)) ∧
      t.regs.PHASE = s.regs.PHASE ∧ t.regs.FMT24 = s.regs.FMT24

/-- The tick accumulator over n REFRESHes (R166, R170): the time has advanced by the whole number of N counts, and TICK
holds the remainder. From reset, where TICK is 0, that is n div N seconds and n mod N. -/
def Obligations.TicksBecomeSeconds : Prop :=
  ∀ (s : State) (n : Nat), s.Sound →
    ∃ t, execAll (List.replicate n .refresh) s = .next t ∧
      t.regs.TICK.toNat = (s.regs.TICK.toNat + n) % s.params.ticksPerSecond ∧
      t.regs.FMT24 = s.regs.FMT24 ∧
      t.regs.clock = (s.regs.clock + (s.regs.TICK.toNat + n) / s.params.ticksPerSecond) % s.regs.cycle

/-- REFRESH is the only writer of CUR, TICK, SEG and DSEL, and advances the display by exactly one position
(R160). STEP at PHASE 5 is that REFRESH. -/
def Obligations.OnlyRefreshWritesDisplay : Prop :=
  (∀ (s t : State) (i : Instr), s.Unmarked → exec i s = .next t → i ≠ .refresh →
    (∀ b, i = .step b → s.regs.PHASE ≠ 5) →
    t.regs.CUR = s.regs.CUR ∧ t.regs.TICK.toNat = s.regs.TICK.toNat ∧ t.regs.SEG = s.regs.SEG ∧ t.regs.DSEL = s.regs.DSEL) ∧
  (∀ s : State, s.Sound → ∃ t, exec .refresh s = .next t ∧ t.regs.CUR.toNat = (s.regs.CUR.toNat + 1) % 6 ∧
    ∀ k < 6, t.regs.DSEL.getLsbD k = decide (k = s.regs.CUR.toNat))

/-- The tick accumulator (R166): each REFRESH adds one to TICK; where the result is N it runs ADVANCE_SECOND once and TICK
is 0, otherwise the result is stored. Nothing else reads or writes TICK, and no operation but ADVANCE_SECOND, SET and
REFRESH changes the seconds. The default N is 225. STEP at PHASE 5 is REFRESH. -/
def Obligations.TickAccumulator : Prop :=
  (∀ s : State, s.Sound →
    (s.regs.TICK.toNat + 1 ≠ s.params.ticksPerSecond → ∃ t, exec .refresh s = .next t ∧
      t.regs.TICK.toNat = s.regs.TICK.toNat + 1 ∧ t.regs.timeWord = s.regs.timeWord ∧ t.regs.FMT24 = s.regs.FMT24) ∧
    (s.regs.TICK.toNat + 1 = s.params.ticksPerSecond → ∃ t u, exec .refresh s = .next t ∧ exec .advanceSecond s = .next u ∧
      t.regs.TICK = 0 ∧ t.regs.timeWord = u.regs.timeWord ∧ t.regs.FMT24 = u.regs.FMT24)) ∧
  (∀ (s t : State) (i : Instr) (v : Nat), s.Unmarked → exec i s = .next t → i ≠ .refresh →
    (∀ b, i = .step b → s.regs.PHASE ≠ 5) →
    t.regs.TICK.toNat = s.regs.TICK.toNat ∧
    (v < s.params.ticksPerSecond →
      exec i { s with regs := { s.regs with TICK := BitVec.ofNat _ v } } =
        .next { t with regs := { t.regs with TICK := BitVec.ofNat _ v } }) ∧
    (i ≠ .advanceSecond → (∀ ht hu mt mu st su, i ≠ .set ht hu mt mu st su) →
      t.regs.ST = s.regs.ST ∧ t.regs.SU = s.regs.SU)) ∧
  defaultParams.ticksPerSecond = 225

/-- The register TICK of W_TICK bits holds every count below N as itself, and where it has more than one bit, one bit less
would not do (10_state.md R27, R5; the width is the spec's decision D26). -/
def Obligations.TickFitsItsWidth : Prop :=
  ∀ (s : State) (v : Nat),
    (v < s.params.ticksPerSecond → ({ s.regs with TICK := BitVec.ofNat _ v } : Regs s.width).TICK.toNat = v) ∧
    (1 < s.width → 2 ^ (s.width - 1) < s.params.ticksPerSecond)

/-! ### Input controller and sequencer -/

/-- The minute and hour-decrement polls (44_input_controller.md R193, R194, R196): an asserted line runs its operation,
with that operation's effect and its faults. -/
def Obligations.MinuteAndHourDownPolls : Prop :=
  ∀ (s : State) (btn : Lines) (k : Nat) (op : Instr), s.Unmarked →
    (k = 1 ∧ op = .incMinute ∨ k = 2 ∧ op = .decMinute ∨ k = 4 ∧ op = .decHour) →
    s.regs.PHASE.toNat = k → btn.getLsbD k = false →
    (s.regs.Valid s.params →
      ∃ t, exec op s = .next t ∧
        exec (.step btn) s = .next { t with regs := { t.regs with PHASE := BitVec.ofNat 3 (k + 1) } }) ∧
    (¬ s.regs.Valid s.params →
      (∃ m, exec op s = .fault (.invalidState op m)) ∧ ∃ m, exec (.step btn) s = .fault (.invalidState (.step btn) m))

/-- The format and hour-increment polls (R192, R195): one conversion is the spec's decision D13, the pre-check its
decision D12. -/
def Obligations.FormatAndHourUpPolls : Prop :=
  ∀ (s : State) (btn : Lines) (k : Nat) (op : Instr), s.Sound →
    (k = 0 ∧ op = .toggleFormat ∨ k = 3 ∧ op = .hourUpAction) →
    s.regs.PHASE.toNat = k → btn.getLsbD k = false →
    ∃ t, exec op s = .next t ∧
      exec (.step btn) s = .next { t with regs := { t.regs with PHASE := BitVec.ofNat 3 (k + 1) } }

/-- A poll whose line reads 1 changes PHASE only (R191, R211). -/
def Obligations.IdlePollMovesPhaseOnly : Prop :=
  ∀ (s : State) (btn : Lines), s.Sound → s.regs.PHASE.toNat ≤ 4 → btn.getLsbD s.regs.PHASE.toNat = true →
    exec (.step btn) s =
      .next { s with regs := { s.regs with PHASE := BitVec.ofNat 3 (s.regs.PHASE.toNat + 1) } }

/-- STEP at PHASE 5 is REFRESH, and PHASE wraps to 0 (R211). -/
def Obligations.PhaseFiveRefreshes : Prop :=
  ∀ (s : State) (btn : Lines), s.Sound → s.regs.PHASE.toNat = 5 →
    ∃ t, exec .refresh s = .next t ∧ exec (.step btn) s = .next { t with regs := { t.regs with PHASE := 0 } }

/-- STEP reads the line of its own phase and no other, and at PHASE 5 none (R54, R211). -/
def Obligations.StepReadsOneLine : Prop :=
  ∀ (s : State) (a b : Lines), s.Sound →
    (s.regs.PHASE.toNat ≤ 4 → a.getLsbD s.regs.PHASE.toNat = b.getLsbD s.regs.PHASE.toNat) →
    exec (.step a) s = exec (.step b) s

/-- A main-loop iteration (45_main_loop.md R212, R213): six STEPs from PHASE 0 with the lines held are the asserted
actions in phase order and then one REFRESH, and PHASE is 0 again. -/
def Obligations.IterationIsActionsThenRefresh : Prop :=
  ∀ (s : State) (btn : Lines), s.Sound → s.regs.PHASE = 0 →
    ∃ t, execAll (List.replicate 6 (.step btn)) s = .next t ∧ execAll (iterationOps btn) s = .next t ∧
      t.regs.PHASE = 0

/-- Dark start (70_reset_and_hazards.md R262, R265): in the first five STEPs after reset no line is lit, whatever the
buttons; the sixth shows slot 0. The dark value is the spec's decision D7. -/
def Obligations.DarkUntilSixthStep : Prop :=
  ∀ bs : List Lines,
    (bs.length ≤ 5 → ∃ t, execAll (bs.map .step) State.reset = .next t ∧ t.regs.SEG = 0 ∧ t.regs.DSEL = 0 ∧
      t.regs.PHASE.toNat = bs.length) ∧
    (bs.length = 6 → ∃ t, execAll (bs.map .step) State.reset = .next t ∧ t.regs.DSEL = 0b000001 ∧ t.regs.PHASE = 0)

/-- The sequencer by itself, over one iteration: its six steps read one draw of the pins, so they are the asserted actions of
that draw in phase order and then one REFRESH, and two lines on one pin read the same level at their own polls, so that both
actions fire or neither does (R199, R213; the map is OPEN and the levels are free, log entry 8). -/
def Obligations.SharedPinsFireTogether : Prop :=
  ∀ s : State, s.Sound → s.env.pending = [] → s.regs.PHASE = 0 →
    (∃ t, stepMany 6 s = .next t ∧ t.regs.PHASE = 0 ∧
      execAll (iterationOps (drawnLines s.env.draws)) { s with env := { s.env with draws := s.env.draws + 1 } } =
        .next t) ∧
    ∀ j k : Fin 5, Config.actionPinMap j = Config.actionPinMap k →
      (drawnLines s.env.draws).getLsbD j = (drawnLines s.env.draws).getLsbD k

/-- Only STEP moves PHASE, by one modulo 6; a direct operation leaves it alone (R28, R211, R215). -/
def Obligations.OnlyStepMovesPhase : Prop :=
  ∀ (s t : State) (i : Instr), s.Unmarked → exec i s = .next t →
    ((∃ b, i = .step b) → t.regs.PHASE.toNat = (s.regs.PHASE.toNat + 1) % 6) ∧
    ((∀ b, i ≠ .step b) → t.regs.PHASE = s.regs.PHASE)

/-- The lines read the pins the map names; two lines on one pin read the same level (R199; the map is OPEN, log entry 8). -/
def Obligations.LinesReadTheirPins : Prop :=
  ∀ (m : Fin 5 → Fin 4) (pins : BitVec 4) (k : Fin 5), (linesOfPins m pins).getLsbD k = pins.getLsbD (m k)

/-! ### Marks, faults, the whole machine -/

/-- Every operation that begins with `require_valid()` faults on a state that is not Valid, and records the operation and
the state before it (41_time_model.md R100, 60_exceptions.md R232: the spec's decision D20; the form is log entry 1). -/
def Obligations.InvalidStateFaults : Prop :=
  ∀ (s : State) (i : Instr), s.Unmarked → ¬ s.regs.Valid s.params → checksState i = true →
    exec i s = .fault (.invalidState i { s with FAULT := ⟨true⟩ })

/-- No operation that checks its state, and no SET, is enabled where FAULT is not empty (R214, R234; the model's reading,
log entry 1). -/
def Obligations.MarkedStateIsNotEnabled : Prop :=
  ∀ (s : State) (i : Instr), s.FAULT ≠ ⟨false⟩ →
    (checksState i = true ∨ ∃ ht hu mt mu st su, i = .set ht hu mt mu st su) → exec i s = .fault (.faulted i s)

/-- A reserved word is recorded in REFUSED and changes no hardware state, be the registers Valid or not: it is not executed,
so it cannot fault (30_encoding.md R78, 60_exceptions.md R233, R236: the spec's decision D19; that the run goes on is log entry
2). -/
def Obligations.ReservedWordOnlyMarks : Prop :=
  ∀ (s : State) (w : OpWord) (i : Instr), s.Unmarked → i = .reservedAB w ∨ i = .reservedCF w →
    exec i s = .next { s with REFUSED := { s.REFUSED with reservedOpcode := true } }

/-- A waiting word that matches no row is taken, recorded in REFUSED and changes no hardware state (R77, R78; log
entries 2 and 7). -/
def Obligations.UnmatchedWordOnlyMarks : Prop :=
  ∀ (s : State) (w : OpWord) (rest : List Issue), s.Unmarked → s.env.pending = .opWord w :: rest →
    (∀ row ∈ opRows, row.holds w = false) →
    step s = .next { s with REFUSED := { s.REFUSED with nonzeroReservedField := true },
                            env := { s.env with pending := rest } }

/-- Every operation but SET completes on a Valid state and leaves a Valid state (`KeepsValid`, R110, R169). -/
def Obligations.OperationsKeepValid : Prop :=
  ∀ i : Instr, (∀ ht hu mt mu st su, i ≠ .set ht hu mt mu st su) → KeepsValid i

/-- The invariant of the machine: FAULT empty, the registers Valid, the select output legal; every step that gives a next
state keeps it (10_state.md R20, R21). A refused word keeps it because it changes no hardware state (R233); that a state whose
REFUSED is not empty runs on is the model's reading, log entries 2 and 17. -/
def Obligations.StepKeepsInvariant : Prop :=
  ∀ s t : State, s.Inv → step s = .next t → t.Inv

/-- From a state that meets the invariant a step stops in one case only: a waiting SET whose digits break Valid (R102, R110;
the queue it waits in is the model's own, log entry 7, and so is the reading that a state with REFUSED marked runs on, log
entry 17). No step of any state has the outcome `refused`, because a refused word, R233's refusal, is a next state: the
model's choice, log entry 2. -/
def Obligations.OnlyBadSetStops : Prop :=
  (∀ (s : State) (f : Fault), s.Inv → step s = .fault f →
    ∃ ht hu mt mu st su rest, s.env.pending = encode (.set ht hu mt mu st su) :: rest ∧
      ¬ ({ s.regs with HT := ht, HU := hu, MT := mt, MU := mu, ST := st, SU := su } : Regs s.width).Valid s.params) ∧
  ∀ (s : State) (e : Refusal), step s ≠ .refused e

/-- The marks are sticky (R234): no step removes a reason. That a next state has the FAULT of the state before, and that a
step of the sequencer alone adds no reason at all, hold by the model's form: the reason R232 adds to FAULT stands in the fault
outcome, which is no next state (log entry 1), a refused word is a next state (log entry 2), and such words come from the
queue (log entry 7). -/
def Obligations.MarksAreSticky : Prop :=
  ∀ s t : State, step s = .next t →
    t.FAULT = s.FAULT ∧
    (s.REFUSED.reservedOpcode = true → t.REFUSED.reservedOpcode = true) ∧
    (s.REFUSED.nonzeroReservedField = true → t.REFUSED.nonzeroReservedField = true) ∧
    (s.env.pending = [] → t.REFUSED = s.REFUSED)

/-- No step writes the parameters of the instance (10_state.md R34). -/
def Obligations.ParametersNeverWritten : Prop :=
  ∀ s t : State, step s = .next t → t.params = s.params

/-- Nothing depends on the three delays (70_reset_and_hazards.md R276): with other delays the same step gives the same
state. -/
def Obligations.DelaysHaveNoEffect : Prop :=
  ∀ (s t : State) (a b c : Nat), s.Unmarked → step s = .next t → step (s.withDelays a b c) = .next (t.withDelays a b c)
end

