-- ==== Sys2Proof/Laws/State.lean ====
section
/-! SUPPORT. What each update of the state leaves in each field. -/

namespace Sys2Proof.Machine

/-- W_TICK bits hold every count up to N - 1 (R5). -/
theorem ticks_le_two_pow_wTick (n : Nat) : n ≤ 2 ^ wTick n :=
  (Nat.le_pow_clog (by omega) n).trans (Nat.pow_le_pow_right (by omega) (le_max_right _ _))

end Sys2Proof.Machine

namespace Sys2Proof.Machine.State

variable (s : State)

@[simp] theorem withRegs_regs (r : Regs s.width) : (s.withRegs r).regs = r := rfl
@[simp] theorem withRegs_params (r : Regs s.width) : (s.withRegs r).params = s.params := rfl
@[simp] theorem withRegs_FAULT (r : Regs s.width) : (s.withRegs r).FAULT = s.FAULT := rfl
@[simp] theorem withRegs_REFUSED (r : Regs s.width) : (s.withRegs r).REFUSED = s.REFUSED := rfl
@[simp] theorem withRegs_env (r : Regs s.width) : (s.withRegs r).env = s.env := rfl
@[simp] theorem withRegs_self : s.withRegs s.regs = s := rfl
@[simp] theorem withRegs_withRegs (r q : Regs s.width) : (s.withRegs r).withRegs q = s.withRegs q := rfl

@[simp] theorem markFault_regs : s.markFault.regs = s.regs := rfl
@[simp] theorem markFault_params : s.markFault.params = s.params := rfl
@[simp] theorem markFault_FAULT : s.markFault.FAULT = ⟨true⟩ := rfl
@[simp] theorem markFault_REFUSED : s.markFault.REFUSED = s.REFUSED := rfl
@[simp] theorem markFault_env : s.markFault.env = s.env := rfl

@[simp] theorem markRefused_regs (r : ReservedReason) : (s.markRefused r).regs = s.regs := rfl
@[simp] theorem markRefused_params (r : ReservedReason) : (s.markRefused r).params = s.params := rfl
@[simp] theorem markRefused_FAULT (r : ReservedReason) : (s.markRefused r).FAULT = s.FAULT := rfl
@[simp] theorem markRefused_env (r : ReservedReason) : (s.markRefused r).env = s.env := rfl
@[simp] theorem markRefused_opcode :
    (s.markRefused .reservedOpcode).REFUSED = { s.REFUSED with reservedOpcode := true } := rfl
@[simp] theorem markRefused_field :
    (s.markRefused .nonzeroReservedField).REFUSED = { s.REFUSED with nonzeroReservedField := true } := rfl

@[simp] theorem withPending_regs (xs : List Issue) : (s.withPending xs).regs = s.regs := rfl
@[simp] theorem withPending_params (xs : List Issue) : (s.withPending xs).params = s.params := rfl
@[simp] theorem withPending_FAULT (xs : List Issue) : (s.withPending xs).FAULT = s.FAULT := rfl
@[simp] theorem withPending_REFUSED (xs : List Issue) : (s.withPending xs).REFUSED = s.REFUSED := rfl
@[simp] theorem withPending_pending (xs : List Issue) : (s.withPending xs).env.pending = xs := rfl
@[simp] theorem withPending_draws (xs : List Issue) : (s.withPending xs).env.draws = s.env.draws := rfl
@[simp] theorem withPending_decoded (xs : List Issue) : (s.withPending xs).env.decoded = s.env.decoded := rfl
@[simp] theorem withPending_withPending (xs ys : List Issue) :
    (s.withPending xs).withPending ys = s.withPending ys := rfl
@[simp] theorem withPending_self : s.withPending s.env.pending = s := rfl

@[simp] theorem countDraw_regs (b : Bool) : (s.countDraw b).regs = s.regs := rfl
@[simp] theorem countDraw_params (b : Bool) : (s.countDraw b).params = s.params := rfl
@[simp] theorem countDraw_FAULT (b : Bool) : (s.countDraw b).FAULT = s.FAULT := rfl
@[simp] theorem countDraw_REFUSED (b : Bool) : (s.countDraw b).REFUSED = s.REFUSED := rfl
@[simp] theorem countDraw_pending (b : Bool) : (s.countDraw b).env.pending = s.env.pending := rfl
@[simp] theorem countDraw_decoded (b : Bool) : (s.countDraw b).env.decoded = s.env.decoded := rfl
@[simp] theorem countDraw_draws_true : (s.countDraw true).env.draws = s.env.draws + 1 := rfl
@[simp] theorem countDraw_false : s.countDraw false = s := rfl

@[simp] theorem withDecoded_regs (p : Pattern) : (s.withDecoded p).regs = s.regs := rfl
@[simp] theorem withDecoded_params (p : Pattern) : (s.withDecoded p).params = s.params := rfl
@[simp] theorem withDecoded_FAULT (p : Pattern) : (s.withDecoded p).FAULT = s.FAULT := rfl
@[simp] theorem withDecoded_REFUSED (p : Pattern) : (s.withDecoded p).REFUSED = s.REFUSED := rfl
@[simp] theorem withDecoded_decoded (p : Pattern) : (s.withDecoded p).env.decoded = p := rfl
@[simp] theorem withDecoded_pending (p : Pattern) : (s.withDecoded p).env.pending = s.env.pending := rfl
@[simp] theorem withDecoded_draws (p : Pattern) : (s.withDecoded p).env.draws = s.env.draws := rfl

/-- The register TICK holds every legal count (R27). -/
theorem width_fits : s.params.ticksPerSecond ≤ 2 ^ s.width := ticks_le_two_pow_wTick _

end Sys2Proof.Machine.State
end

