-- ==== Sys2Proof/Laws/Ops.lean ====
section
/-! SUPPORT. What the shared operations can do, said once. -/

namespace Sys2Proof.Machine

variable {W : Nat}

/-- On an enabled, Valid state a guarded operation completes with its register effect. -/
theorem guarded_of_valid {op : Instr} {s : State} {f : Params → Regs s.width → Regs s.width} (hf : s.FAULT = ⟨false⟩)
    (hv : s.regs.Valid s.params) : guarded op s f = .next (s.withRegs (f s.params s.regs)) := by
  unfold guarded whenEnabled
  rw [if_pos hf, if_pos hv]

/-- On an enabled state that is not Valid it raises INVALID_STATE. -/
theorem guarded_of_invalid {op : Instr} {s : State} {f : Params → Regs s.width → Regs s.width} (hf : s.FAULT = ⟨false⟩)
    (hv : ¬ s.regs.Valid s.params) : guarded op s f = .fault (.invalidState op s.markFault) := by
  unfold guarded whenEnabled raiseInvalidState
  rw [if_pos hf, if_neg hv]

/-- On a state with a FAULT mark it is not enabled. -/
theorem guarded_of_faulted {op : Instr} {s : State} {f : Params → Regs s.width → Regs s.width} (hf : s.FAULT ≠ ⟨false⟩) :
    guarded op s f = .fault (.faulted op s) := by
  unfold guarded whenEnabled
  rw [if_neg hf]

/-- A guarded operation gives a next state in one way only. -/
theorem guarded_next {op : Instr} {s t : State} {f : Params → Regs s.width → Regs s.width} (h : guarded op s f = .next t) :
    s.FAULT = ⟨false⟩ ∧ s.regs.Valid s.params ∧ t = s.withRegs (f s.params s.regs) := by
  by_cases hf : s.FAULT = ⟨false⟩
  · by_cases hv : s.regs.Valid s.params
    · rw [guarded_of_valid hf hv] at h
      exact ⟨hf, hv, (Host.Outcome.next.inj h).symm⟩
    · rw [guarded_of_invalid hf hv] at h
      cases h
  · rw [guarded_of_faulted hf] at h
    cases h

/-- A guarded operation never refuses. -/
theorem guarded_not_refused {op : Instr} {s : State} {f : Params → Regs s.width → Regs s.width} {e : Refusal} :
    guarded op s f ≠ .refused e := by
  unfold guarded whenEnabled raiseInvalidState
  split <;> (try split) <;> simp

theorem finishValid_of_valid {op : Instr} {s : State} {r : Regs s.width} (hv : r.Valid s.params) :
    finishValid op s r = .next (s.withRegs r) := if_pos hv

theorem finishValid_of_invalid {op : Instr} {s : State} {r : Regs s.width} (hv : ¬ r.Valid s.params) :
    finishValid op s r = .fault (.invalidState op s.markFault) := if_neg hv

theorem finishValid_next {op : Instr} {s t : State} {r : Regs s.width} (h : finishValid op s r = .next t) :
    r.Valid s.params ∧ t = s.withRegs r := by
  by_cases hv : r.Valid s.params
  · rw [finishValid_of_valid hv] at h
    exact ⟨hv, (Host.Outcome.next.inj h).symm⟩
  · rw [finishValid_of_invalid hv] at h
    cases h

theorem whenEnabled_of_enabled {op : Instr} {s : State} {k : Out} (hf : s.FAULT = ⟨false⟩) :
    whenEnabled op s k = k := if_pos hf

theorem whenEnabled_of_faulted {op : Instr} {s : State} {k : Out} (hf : s.FAULT ≠ ⟨false⟩) :
    whenEnabled op s k = .fault (.faulted op s) := if_neg hf

theorem whenEnabled_next {op : Instr} {s t : State} {k : Out} (h : whenEnabled op s k = .next t) :
    s.FAULT = ⟨false⟩ ∧ k = .next t := by
  by_cases hf : s.FAULT = ⟨false⟩
  · exact ⟨hf, by rwa [whenEnabled_of_enabled hf] at h⟩
  · rw [whenEnabled_of_faulted hf] at h
    cases h

/-- Only the registers that Valid speaks of decide it. -/
theorem Regs.valid_congr {p : Params} {r q : Regs W} (h1 : q.HT = r.HT) (h2 : q.HU = r.HU) (h3 : q.MT = r.MT)
    (h4 : q.MU = r.MU) (h5 : q.ST = r.ST) (h6 : q.SU = r.SU) (h7 : q.FMT24 = r.FMT24) (h8 : q.CUR = r.CUR)
    (h9 : q.TICK = r.TICK) (h10 : q.PHASE = r.PHASE) : q.Valid p ↔ r.Valid p := by
  simp only [Regs.Valid, Regs.DigitsInRange, Regs.CountersInRange, Regs.hour, h1, h2, h3, h4, h5, h6, h7, h8, h9, h10]

@[simp] theorem delay_eq (ms : Nat) (r : Regs W) : delay ms r = r := rfl

/-- A count modulo 6 is at most 5, and is that number. -/
@[simp] theorem next6_toNat (v : BitVec 3) : (next6 v).toNat = (v.toNat + 1) % 6 := by
  unfold next6
  rw [BitVec.toNat_ofNat]
  omega

/-- `setH` writes the hour it is given. -/
theorem Regs.setH_hour {r : Regs W} {h : Nat} (hh : h ≤ 29) : (r.setH h).hour = h := by
  simp only [Regs.hour, Regs.setH, BitVec.toNat_ofNat]
  omega

/-- Writing the hour a register pair already shows changes nothing. -/
theorem Regs.setH_self {r : Regs W} (h1 : r.HT.toNat ≤ 2) (h2 : r.HU.toNat ≤ 9) : r.setH r.hour = r := by
  have e1 : BitVec.ofNat 2 (r.hour / 10) = r.HT := by
    apply BitVec.eq_of_toNat_eq
    rw [BitVec.toNat_ofNat, Regs.hour]
    omega
  have e2 : BitVec.ofNat 4 (r.hour % 10) = r.HU := by
    apply BitVec.eq_of_toNat_eq
    rw [BitVec.toNat_ofNat, Regs.hour]
    omega
  rw [Regs.setH, e1, e2]

/-- An hour in its format's range has digits in theirs. -/
theorem Regs.setH_digits {r : Regs W} {h : Nat} (hh : h ≤ 29) :
    (r.setH h).HT.toNat ≤ 2 ∧ (r.setH h).HU.toNat ≤ 9 := by
  simp only [Regs.setH, BitVec.toNat_ofNat]
  omega

end Sys2Proof.Machine
end

