-- ==== Sys2Proof/Laws/TimeKeeper.lean ====
section
/-! SUPPORT. The register effects of BCD_time_keeper in terms of the combined hour and minute (00_scope.md R9). -/

namespace Sys2Proof.Machine

variable {W : Nat}

/-- A pair of digit registers is the pair of decimal digits of its combined value. -/
theorem digits_of_value {w : Nat} {t : BitVec w} {u : BitVec 4} {v : Nat} (hu : u.toNat ≤ 9)
    (hv : v = 10 * t.toNat + u.toNat) : t = BitVec.ofNat w (v / 10) ∧ u = BitVec.ofNat 4 (v % 10) := by
  have h1 : v / 10 = t.toNat := by omega
  have h2 : v % 10 = u.toNat := by omega
  rw [h1, h2]
  simp

/-- Registers with a new hour pair are `setH` of its value. -/
theorem Regs.withHour_eq {r : Regs W} {t : BitVec 2} {u : BitVec 4} {v : Nat} (hu : u.toNat ≤ 9)
    (hv : v = 10 * t.toNat + u.toNat) : { r with HT := t, HU := u } = r.setH v := by
  obtain ⟨e1, e2⟩ := digits_of_value hu hv
  rw [Regs.setH, ← e1, ← e2]

/-- Registers with a new minute pair hold the two digits of its value. -/
theorem Regs.withMinute_eq {r : Regs W} {t : BitVec 3} {u : BitVec 4} {v : Nat} (hu : u.toNat ≤ 9)
    (hv : v = 10 * t.toNat + u.toNat) :
    { r with MT := t, MU := u } = { r with MT := BitVec.ofNat 3 (v / 10), MU := BitVec.ofNat 4 (v % 10) } := by
  obtain ⟨e1, e2⟩ := digits_of_value hu hv
  rw [← e1, ← e2]

/-- The carry of `hour_inc()` adds one to the hour (R106). -/
theorem hourCarry_eq {r : Regs W} (h1 : r.HT.toNat ≤ 2) (h2 : r.HU.toNat ≤ 9) : hourCarry r = r.setH (r.hour + 1) := by
  unfold hourCarry
  split
  next h =>
    have h' : r.HU.toNat = 9 := by rw [h]; rfl
    exact Regs.withHour_eq (by simp) (by rw [Regs.hour]; bv_omega)
  next h =>
    have h' : r.HU.toNat ≠ 9 := fun e => h (BitVec.eq_of_toNat_eq e)
    exact Regs.withHour_eq (t := r.HT) (by bv_omega) (by rw [Regs.hour]; bv_omega)

/-- `hour_inc()` (R106): the next hour of the format. -/
theorem hourInc_eq {r : Regs W} (h1 : r.HT.toNat ≤ 2) (h2 : r.HU.toNat ≤ 9) (h3 : HourInFormat r.FMT24 r.hour) :
    hourInc r = r.setH (if r.FMT24 then (r.hour + 1) % 24 else r.hour % 12 + 1) := by
  have hb : r.hour + 1 ≤ 29 := by
    cases hf : r.FMT24
    · have := h3.2 hf; omega
    · have := h3.1 hf; omega
  unfold hourInc hourWrap
  rw [hourCarry_eq h1 h2, Regs.setH_hour hb]
  cases hf : r.FMT24
  · have := h3.2 hf
    have e : (r.setH (r.hour + 1)).FMT24 = false := hf
    rw [e]
    by_cases h : 13 ≤ r.hour + 1
    · simp only [h, if_true, and_self, Bool.false_eq_true, false_and, if_false]
      have : r.hour % 12 + 1 = 1 := by omega
      rw [this]
      rfl
    · simp only [h, and_false, Bool.false_eq_true, false_and, if_false]
      have : r.hour % 12 + 1 = r.hour + 1 := by omega
      rw [this]
  · have := h3.1 hf
    have e : (r.setH (r.hour + 1)).FMT24 = true := hf
    rw [e]
    by_cases h : 24 ≤ r.hour + 1
    · simp only [h, if_true, and_self]
      have : (r.hour + 1) % 24 = 0 := by omega
      rw [this]
      rfl
    · simp only [h, and_false, if_false, Bool.true_eq_false, false_and, if_true]
      have : (r.hour + 1) % 24 = r.hour + 1 := by omega
      rw [this]

/-- DEC_HOUR's effect (R108): the previous hour of the format. -/
theorem decHour_eq {r : Regs W} (h1 : r.HT.toNat ≤ 2) (h2 : r.HU.toNat ≤ 9) (h3 : HourInFormat r.FMT24 r.hour) :
    decHour r = r.setH (if r.FMT24 then (r.hour + 23) % 24 else (r.hour + 10) % 12 + 1) := by
  have key : ¬ r.hour = 0 →
      (if r.HU = 0 then { r with HU := 9, HT := r.HT - 1 } else { r with HU := r.HU - 1 }) = r.setH (r.hour - 1) := by
    intro hz
    split
    next h =>
      have h' : r.HU.toNat = 0 := by rw [h]; rfl
      exact Regs.withHour_eq (by simp) (by rw [Regs.hour] at *; bv_omega)
    next h =>
      have h' : r.HU.toNat ≠ 0 := fun e => h (BitVec.eq_of_toNat_eq e)
      exact Regs.withHour_eq (t := r.HT) (by bv_omega) (by rw [Regs.hour]; bv_omega)
  unfold decHour
  split
  next h => rw [if_pos h.1, h.2]
  next h =>
    split
    next g => rw [g.1, g.2]; rfl
    next g =>
      rcases Bool.eq_false_or_eq_true r.FMT24 with hf | hf
      · have hb := h3.1 hf
        have h0 : r.hour ≠ 0 := fun e => h ⟨hf, e⟩
        rw [key h0, hf, if_pos rfl]
        congr 1
        omega
      · have hb := h3.2 hf
        have h0 : r.hour ≠ 1 := fun e => g ⟨hf, e⟩
        rw [key (by omega), hf, if_neg (by decide)]
        congr 1
        omega

/-- INC_MINUTE's effect (R104): the next minute. -/
theorem incMinute_eq {r : Regs W} (h1 : r.MT.toNat ≤ 5) (h2 : r.MU.toNat ≤ 9) :
    incMinute r = { r with MT := BitVec.ofNat 3 ((r.minute + 1) % 60 / 10),
                           MU := BitVec.ofNat 4 ((r.minute + 1) % 60 % 10) } := by
  unfold incMinute
  split
  next h =>
    have h' : r.MU.toNat = 9 := by rw [h]; rfl
    split
    next h5 =>
      have h5' : r.MT.toNat = 5 := by rw [h5]; rfl
      exact Regs.withMinute_eq (by simp) (by rw [Regs.minute, h', h5']; rfl)
    next h5 =>
      have h5' : r.MT.toNat ≠ 5 := fun e => h5 (BitVec.eq_of_toNat_eq e)
      exact Regs.withMinute_eq (by simp) (by rw [Regs.minute]; bv_omega)
  next h =>
    have h' : r.MU.toNat ≠ 9 := fun e => h (BitVec.eq_of_toNat_eq e)
    exact Regs.withMinute_eq (t := r.MT) (by bv_omega) (by rw [Regs.minute]; bv_omega)

/-- DEC_MINUTE's effect (R105): the previous minute. -/
theorem decMinute_eq {r : Regs W} (h1 : r.MT.toNat ≤ 5) (h2 : r.MU.toNat ≤ 9) :
    decMinute r = { r with MT := BitVec.ofNat 3 ((r.minute + 59) % 60 / 10),
                           MU := BitVec.ofNat 4 ((r.minute + 59) % 60 % 10) } := by
  unfold decMinute
  split
  next h =>
    have h' : r.MU.toNat = 0 := by rw [h]; rfl
    split
    next h5 =>
      have h5' : r.MT.toNat = 0 := by rw [h5]; rfl
      exact Regs.withMinute_eq (by simp) (by rw [Regs.minute, h', h5']; rfl)
    next h5 =>
      have h5' : r.MT.toNat ≠ 0 := fun e => h5 (BitVec.eq_of_toNat_eq e)
      exact Regs.withMinute_eq (by simp) (by rw [Regs.minute]; bv_omega)
  next h =>
    have h' : r.MU.toNat ≠ 0 := fun e => h (BitVec.eq_of_toNat_eq e)
    exact Regs.withMinute_eq (t := r.MT) (by bv_omega) (by rw [Regs.minute]; bv_omega)

/-- The registers of an operation that writes the digits and FMT24 only. -/
structure Regs.SameBesideTime (r q : Regs W) : Prop where
  CUR : q.CUR = r.CUR
  TICK : q.TICK = r.TICK
  PHASE : q.PHASE = r.PHASE
  SEG : q.SEG = r.SEG
  DSEL : q.DSEL = r.DSEL

theorem Regs.SameBesideTime.trans {a b c : Regs W} (h : a.SameBesideTime b) (k : b.SameBesideTime c) :
    a.SameBesideTime c :=
  ⟨k.CUR.trans h.CUR, k.TICK.trans h.TICK, k.PHASE.trans h.PHASE, k.SEG.trans h.SEG, k.DSEL.trans h.DSEL⟩

theorem setH_beside (r : Regs W) (h : Nat) : r.SameBesideTime (r.setH h) := ⟨rfl, rfl, rfl, rfl, rfl⟩

theorem toggleFormat_beside (r : Regs W) : r.SameBesideTime (toggleFormat r) := ⟨rfl, rfl, rfl, rfl, rfl⟩

theorem incMinute_beside (r : Regs W) : r.SameBesideTime (incMinute r) := by
  unfold incMinute
  split <;> exact ⟨rfl, rfl, rfl, rfl, rfl⟩

theorem decMinute_beside (r : Regs W) : r.SameBesideTime (decMinute r) := by
  unfold decMinute
  split <;> exact ⟨rfl, rfl, rfl, rfl, rfl⟩

theorem hourInc_beside (r : Regs W) : r.SameBesideTime (hourInc r) := by
  unfold hourInc hourWrap hourCarry
  repeat' split
  all_goals exact ⟨rfl, rfl, rfl, rfl, rfl⟩

theorem decHour_beside (r : Regs W) : r.SameBesideTime (decHour r) := by
  unfold decHour
  repeat' split
  all_goals exact ⟨rfl, rfl, rfl, rfl, rfl⟩

theorem advanceSecond_beside (r : Regs W) : r.SameBesideTime (advanceSecond r) := by
  unfold advanceSecond carryMinute
  repeat' split
  all_goals first
    | exact ⟨rfl, rfl, rfl, rfl, rfl⟩
    | exact ⟨(hourInc_beside _).CUR, (hourInc_beside _).TICK, (hourInc_beside _).PHASE, (hourInc_beside _).SEG,
        (hourInc_beside _).DSEL⟩

/-- `hour_inc()` writes the hour pair only. -/
theorem hourInc_keeps (r : Regs W) :
    (hourInc r).MT = r.MT ∧ (hourInc r).MU = r.MU ∧ (hourInc r).ST = r.ST ∧ (hourInc r).SU = r.SU ∧
      (hourInc r).FMT24 = r.FMT24 := by
  unfold hourInc hourWrap hourCarry
  repeat' split
  all_goals exact ⟨rfl, rfl, rfl, rfl, rfl⟩

/-- DEC_HOUR writes the hour pair only. -/
theorem decHour_keeps (r : Regs W) :
    (decHour r).MT = r.MT ∧ (decHour r).MU = r.MU ∧ (decHour r).ST = r.ST ∧ (decHour r).SU = r.SU ∧
      (decHour r).FMT24 = r.FMT24 := by
  unfold decHour
  repeat' split
  all_goals exact ⟨rfl, rfl, rfl, rfl, rfl⟩

/-- INC_MINUTE writes the minute pair only. -/
theorem incMinute_keeps (r : Regs W) :
    (incMinute r).HT = r.HT ∧ (incMinute r).HU = r.HU ∧ (incMinute r).ST = r.ST ∧ (incMinute r).SU = r.SU ∧
      (incMinute r).FMT24 = r.FMT24 := by
  unfold incMinute
  split <;> exact ⟨rfl, rfl, rfl, rfl, rfl⟩

/-- DEC_MINUTE writes the minute pair only. -/
theorem decMinute_keeps (r : Regs W) :
    (decMinute r).HT = r.HT ∧ (decMinute r).HU = r.HU ∧ (decMinute r).ST = r.ST ∧ (decMinute r).SU = r.SU ∧
      (decMinute r).FMT24 = r.FMT24 := by
  unfold decMinute
  split <;> exact ⟨rfl, rfl, rfl, rfl, rfl⟩

/-- ADVANCE_SECOND does not write the flag. -/
theorem advanceSecond_FMT24 (r : Regs W) : (advanceSecond r).FMT24 = r.FMT24 := by
  unfold advanceSecond carryMinute
  repeat' split
  all_goals first
    | rfl
    | exact (hourInc_keeps _).2.2.2.2

/-- A new hour in the format's range keeps Valid. -/
theorem Regs.valid_setH {p : Params} {r : Regs W} (hv : r.Valid p) {h : Nat} (hh : HourInFormat r.FMT24 h) :
    (r.setH h).Valid p := by
  have hb : h ≤ 29 := by
    cases hf : r.FMT24
    · have := hh.2 hf; omega
    · have := hh.1 hf; omega
  obtain ⟨hd, _, hc⟩ := hv
  obtain ⟨d1, d2⟩ := Regs.setH_digits (r := r) hb
  refine ⟨⟨d1, d2, hd.2.2⟩, ?_, hc⟩
  rw [Regs.setH_hour hb]
  exact hh

/-- New minute digits in range keep Valid. -/
theorem Regs.valid_withMinute {p : Params} {r : Regs W} (hv : r.Valid p) {v : Nat} (h : v < 60) :
    Regs.Valid p { r with MT := BitVec.ofNat 3 (v / 10), MU := BitVec.ofNat 4 (v % 10) } := by
  obtain ⟨hd, hh, hc⟩ := hv
  refine ⟨⟨hd.1, hd.2.1, ?_, ?_, hd.2.2.2.2⟩, hh, hc⟩ <;> rw [BitVec.toNat_ofNat] <;> omega

theorem valid_hourInc {p : Params} {r : Regs W} (hv : r.Valid p) : (hourInc r).Valid p := by
  rw [hourInc_eq hv.1.1 hv.1.2.1 hv.2.1]
  refine Regs.valid_setH hv ⟨fun hf => ?_, fun hf => ?_⟩
  · rw [if_pos hf]; omega
  · rw [hf, if_neg (by decide)]; omega

theorem valid_decHour {p : Params} {r : Regs W} (hv : r.Valid p) : (decHour r).Valid p := by
  rw [decHour_eq hv.1.1 hv.1.2.1 hv.2.1]
  refine Regs.valid_setH hv ⟨fun hf => ?_, fun hf => ?_⟩
  · rw [if_pos hf]; omega
  · rw [hf, if_neg (by decide)]; omega

theorem valid_incMinute {p : Params} {r : Regs W} (hv : r.Valid p) : (incMinute r).Valid p := by
  rw [incMinute_eq hv.1.2.2.1 hv.1.2.2.2.1]
  exact Regs.valid_withMinute hv (by omega)

theorem valid_decMinute {p : Params} {r : Regs W} (hv : r.Valid p) : (decMinute r).Valid p := by
  rw [decMinute_eq hv.1.2.2.1 hv.1.2.2.2.1]
  exact Regs.valid_withMinute hv (by omega)

/-- The converted hour lies in the other format's range (R103). -/
theorem convertHour_inFormat {f : Bool} {h : Nat} (hh : HourInFormat f h) :
    HourInFormat (flipFormat f) (convertHour f h) := by
  cases f
  · have := hh.2 rfl
    refine ⟨fun _ => ?_, fun e => absurd e (by decide)⟩
    simp only [convertHour, hourTo24, Bool.false_eq_true, if_false]
    split <;> omega
  · have := hh.1 rfl
    refine ⟨fun e => absurd e (by decide), fun _ => ?_⟩
    simp only [convertHour, hourTo12, if_true]
    repeat' split
    all_goals omega

theorem valid_toggleFormat {p : Params} {r : Regs W} (hv : r.Valid p) : (toggleFormat r).Valid p := by
  have hc := convertHour_inFormat hv.2.1
  have hb : convertHour r.FMT24 r.hour ≤ 29 := by
    cases hf : r.FMT24
    · rw [hf] at hc; have := hc.1 rfl; omega
    · rw [hf] at hc; have := hc.2 rfl; omega
  obtain ⟨d1, d2⟩ := Regs.setH_digits (r := r) hb
  refine ⟨⟨d1, d2, hv.1.2.2⟩, ?_, hv.2.2⟩
  have e : (toggleFormat r).hour = convertHour r.FMT24 r.hour := Regs.setH_hour (r := r) hb
  rw [e]
  exact hc

theorem valid_advanceSecond {p : Params} {r : Regs W} (hv : r.Valid p) : (advanceSecond r).Valid p := by
  obtain ⟨⟨d1, d2, d3, d4, d5, d6⟩, hh, hc⟩ := hv
  unfold advanceSecond carryMinute
  repeat' split
  · exact ⟨⟨d1, d2, d3, d4, d5, by bv_omega⟩, hh, hc⟩
  · exact ⟨⟨d1, d2, d3, d4, by bv_omega, by simp⟩, hh, hc⟩
  · exact ⟨⟨d1, d2, d3, by bv_omega, by simp, by simp⟩, hh, hc⟩
  · exact ⟨⟨d1, d2, by bv_omega, by simp, by simp, by simp⟩, hh, hc⟩
  · exact valid_hourInc ⟨⟨d1, d2, by simp, by simp, by simp, by simp⟩, hh, hc⟩

end Sys2Proof.Machine
end

