-- ==== Sys2Proof/Laws/Clock.lean ====
section
/-! SUPPORT. The time as one number: ADVANCE_SECOND adds one to it, modulo the clock's cycle (41_time_model.md R112). -/

namespace Sys2Proof.Machine

variable {W : Nat}

/-- The six digits of a Valid time are those of its clock number. -/
theorem Regs.setClock_clock {p : Params} {r : Regs W} (hv : r.Valid p) : r.setClock r.clock = r := by
  obtain ⟨⟨d1, d2, d3, d4, d5, d6⟩, ⟨h24, h12⟩, -⟩ := hv
  have hm : r.minute ≤ 59 := by unfold Regs.minute; omega
  have hs : r.second ≤ 59 := by unfold Regs.second; omega
  have e1 : r.clock / 3600 = if r.FMT24 then r.hour else r.hour % 12 := by unfold Regs.clock; omega
  have e2 : r.clock / 60 % 60 = r.minute := by unfold Regs.clock; omega
  have e3 : r.clock % 60 = r.second := by unfold Regs.clock; omega
  have e4 : (if r.FMT24 then r.clock / 3600 else if r.clock / 3600 = 0 then 12 else r.clock / 3600) = r.hour := by
    rw [e1]
    rcases Bool.eq_false_or_eq_true r.FMT24 with hf | hf
    · simp only [hf, if_true]
    · have := h12 hf
      simp only [hf, Bool.false_eq_true, if_false]
      split <;> omega
  obtain ⟨a1, a2⟩ := digits_of_value (t := r.HT) (u := r.HU) (v := r.hour) d2 rfl
  obtain ⟨a3, a4⟩ := digits_of_value (t := r.MT) (u := r.MU) (v := r.minute) d4 rfl
  obtain ⟨a5, a6⟩ := digits_of_value (t := r.ST) (u := r.SU) (v := r.second) d6 rfl
  simp only [Regs.setClock, e2, e3, e4, ← a1, ← a2, ← a3, ← a4, ← a5, ← a6, Regs.writeDigits]

/-- Two settings of the time: the last one counts. -/
theorem Regs.setClock_setClock (r : Regs W) (c d : Nat) : (r.setClock c).setClock d = r.setClock d := rfl

/-- The clock number of a Valid time lies in the cycle. -/
theorem Regs.clock_lt {p : Params} {r : Regs W} (hv : r.Valid p) : r.clock < r.cycle := by
  obtain ⟨⟨d1, d2, d3, d4, d5, d6⟩, ⟨h24, h12⟩, -⟩ := hv
  unfold Regs.clock Regs.cycle Regs.minute Regs.second
  rcases Bool.eq_false_or_eq_true r.FMT24 with hf | hf
  · have := h24 hf
    simp only [hf, if_true]
    omega
  · have := h12 hf
    simp only [hf, Bool.false_eq_true, if_false]
    omega

/-- A digit pair written from a number below 30 holds it. -/
theorem pair_value_hour {h : Nat} (hh : h ≤ 29) : 10 * (h / 10 % 2 ^ 2) + h % 10 % 2 ^ 4 = h := by omega

/-- A digit pair written from a number below 60 holds it. -/
theorem pair_value_sixty {v : Nat} (hv : v < 60) : 10 * (v / 10 % 2 ^ 3) + v % 10 % 2 ^ 4 = v := by omega

/-- Any clock number of the cycle is the time of a Valid state. -/
theorem Regs.valid_setClock {p : Params} {r : Regs W} (hc : r.CountersInRange p) {c : Nat} (h : c < r.cycle) :
    (r.setClock c).Valid p ∧ (r.setClock c).clock = c := by
  unfold Regs.cycle at h
  have hm := pair_value_sixty (v := c / 60 % 60) (by omega)
  have hs := pair_value_sixty (v := c % 60) (by omega)
  have hr : (if r.FMT24 then c / 3600 else if c / 3600 = 0 then 12 else c / 3600) ≤ 29 := by
    split at h <;> (repeat' split) <;> omega
  have hh := pair_value_hour hr
  simp only [Regs.Valid, Regs.DigitsInRange, Regs.CountersInRange, Regs.clock, Regs.setClock, Regs.writeDigits, Regs.hour,
    Regs.minute, Regs.second, BitVec.toNat_ofNat] at hc ⊢
  rw [hm, hs, hh]
  refine ⟨⟨⟨?_, ?_, ?_, ?_, ?_, ?_⟩, ⟨fun hf => ?_, fun hf => ?_⟩, hc⟩, ?_⟩
  · omega
  · omega
  · omega
  · omega
  · omega
  · omega
  · rw [if_pos hf] at h ⊢; omega
  · rw [hf] at h ⊢
    rw [if_neg (by decide)] at h ⊢
    split <;> omega
  · rcases Bool.eq_false_or_eq_true r.FMT24 with hf | hf <;> rw [hf] at h ⊢
    · rw [if_pos rfl] at h
      rw [if_pos rfl, if_pos rfl]
      omega
    · rw [if_neg (by decide)] at h
      rw [if_neg (by decide), if_neg (by decide)]
      split <;> omega

/-- A Valid time is named by its clock number. -/
theorem Regs.eq_setClock {p : Params} {r q : Regs W} (hv : q.Valid p) (hb : r.SameBesideTime q) (hf : q.FMT24 = r.FMT24) :
    q = r.setClock q.clock := by
  have h := Regs.setClock_clock hv
  obtain ⟨b1, b2, b3, b4, b5⟩ := hb
  conv => lhs; rw [← h]
  simp only [Regs.setClock, Regs.writeDigits, hf, b1, b2, b3, b4, b5]

/-- The carry into the hour at 59:59 makes the clock number one greater, or starts the cycle again. -/
theorem hourInc_clock {r : Regs W} (h1 : r.HT.toNat ≤ 2) (h2 : r.HU.toNat ≤ 9) (h3 : HourInFormat r.FMT24 r.hour)
    (hm : r.minute = 0) (hs : r.second = 0) :
    (hourInc r).clock = r.clock + 3600 ∨ (hourInc r).clock = 0 ∧ r.clock + 3600 = r.cycle := by
  rw [hourInc_eq h1 h2 h3]
  have em (h : Nat) : (r.setH h).minute = 0 := hm
  have es (h : Nat) : (r.setH h).second = 0 := hs
  have ef (h : Nat) : (r.setH h).FMT24 = r.FMT24 := rfl
  rw [Regs.clock, Regs.clock, em, es, ef, hm, hs, Regs.cycle]
  rcases Bool.eq_false_or_eq_true r.FMT24 with hf | hf
  · have := h3.1 hf
    rw [hf, if_pos rfl, if_pos rfl, if_pos rfl, if_pos rfl, Regs.setH_hour (by omega)]
    omega
  · have := h3.2 hf
    rw [hf, if_neg (by decide), if_neg (by decide), if_neg (by decide), if_neg (by decide), Regs.setH_hour (by omega)]
    omega

/-- ADVANCE_SECOND's effect makes the clock number one greater, or starts the cycle again. -/
theorem advanceSecond_clock_cases {r : Regs W} (hd : r.DigitsInRange) (hh : HourInFormat r.FMT24 r.hour) :
    (advanceSecond r).clock = r.clock + 1 ∨ (advanceSecond r).clock = 0 ∧ r.clock + 1 = r.cycle := by
  obtain ⟨d1, d2, d3, d4, d5, d6⟩ := hd
  have e4 : ((0 : BitVec 4)).toNat = 0 := rfl
  have e3 : ((0 : BitVec 3)).toNat = 0 := rfl
  unfold advanceSecond
  split
  next h1 =>
    left
    simp only [Regs.clock, Regs.hour, Regs.minute, Regs.second]
    bv_omega
  next h1 =>
    split
    next h2 =>
      left
      simp only [Regs.clock, Regs.hour, Regs.minute, Regs.second, e4]
      bv_omega
    next h2 =>
      have hs : r.second = 59 := by unfold Regs.second; omega
      have c0 : r.clock = 3600 * (if r.FMT24 then r.hour else r.hour % 12) + 60 * r.minute + 59 := by
        rw [Regs.clock, hs]
      unfold carryMinute
      split
      next h3 =>
        change r.MU.toNat < 9 at h3
        left
        rw [c0]
        simp only [Regs.clock, Regs.hour, Regs.minute, Regs.second, e3, e4]
        bv_omega
      next h3 =>
        change ¬ r.MU.toNat < 9 at h3
        split
        next h4 =>
          change r.MT.toNat < 5 at h4
          left
          rw [c0]
          simp only [Regs.clock, Regs.hour, Regs.minute, Regs.second, e3, e4]
          bv_omega
        next h4 =>
          change ¬ r.MT.toNat < 5 at h4
          have hm : r.minute = 59 := by unfold Regs.minute; omega
          have k := hourInc_clock (r := { r with MT := 0, MU := 0, ST := 0, SU := 0 }) d1 d2 hh rfl rfl
          have c1 : Regs.clock { r with MT := 0, MU := 0, ST := 0, SU := 0 } + 3600 = r.clock + 1 := by
            rw [c0, hm]
            rfl
          rw [c1] at k
          exact k

/-- ADVANCE_SECOND's effect adds one second to the clock number, modulo the cycle (R109, R112). -/
theorem advanceSecond_clock {p : Params} {r : Regs W} (hv : r.Valid p) :
    (advanceSecond r).clock = (r.clock + 1) % r.cycle := by
  have hlt := Regs.clock_lt (valid_advanceSecond hv)
  rw [Regs.cycle, advanceSecond_FMT24, ← Regs.cycle] at hlt
  rcases advanceSecond_clock_cases hv.1 hv.2.1 with h | ⟨h, hc⟩
  · rw [h] at hlt ⊢
    exact (Nat.mod_eq_of_lt hlt).symm
  · rw [h, hc, Nat.mod_self]

/-- ADVANCE_SECOND's effect (R109): the time one second later in the cycle, and nothing else. -/
theorem advanceSecond_eq {p : Params} {r : Regs W} (hv : r.Valid p) :
    advanceSecond r = r.setClock ((r.clock + 1) % r.cycle) := by
  rw [← advanceSecond_clock hv]
  exact Regs.eq_setClock (valid_advanceSecond hv) (advanceSecond_beside r) (advanceSecond_FMT24 r)

end Sys2Proof.Machine
end

