-- ==== Sys2Proof/Laws/Sequencer.lean ====
section
/-! SUPPORT. The register effects of REFRESH, the poll actions and STEP: what they write, and that they keep Valid. -/

namespace Sys2Proof.Machine

variable {W : Nat}

/-- Steps 1 to 5 of REFRESH write SEG, DSEL and CUR only, from the slot at the cursor (R161). -/
theorem showSlot_eq (p : Params) (r : Regs W) :
    showSlot p r = { r with SEG := segmentPattern p (r.slotDigit r.CUR), DSEL := onehot6 r.CUR, CUR := next6 r.CUR } :=
  rfl

/-- The state in which REFRESH runs ADVANCE_SECOND is Valid, so that operation's own `require_valid()` cannot fire. -/
theorem valid_showSlot {p : Params} {r : Regs W} (hv : r.Valid p) : (showSlot p r).Valid p := by
  refine ⟨hv.1, hv.2.1, ?_, hv.2.2.2⟩
  rw [showSlot_eq, next6_toNat]
  omega

/-- Below the register's width a count is one more. -/
theorem tick_succ {v : BitVec W} (h : v.toNat + 1 < 2 ^ W) : (v + 1).toNat = v.toNat + 1 := by
  have h1 : 1 < 2 ^ W := by omega
  rw [BitVec.toNat_add, show (1 : BitVec W).toNat = 1 % 2 ^ W from BitVec.toNat_ofNat 1 W, Nat.mod_eq_of_lt h1,
    Nat.mod_eq_of_lt h]

/-- The tick accumulator writes TICK and, through ADVANCE_SECOND, the time (R166). -/
theorem valid_countTick {p : Params} {r : Regs W} (hw : p.ticksPerSecond ≤ 2 ^ W) (hv : r.Valid p) :
    (countTick p r).Valid p := by
  have hn : 0 < p.ticksPerSecond := Nat.lt_of_le_of_lt (Nat.zero_le _) hv.2.2.2.1
  unfold countTick
  split
  next h =>
    have ha := valid_advanceSecond hv
    exact ⟨ha.1, ha.2.1, ha.2.2.1, hn, ha.2.2.2.2⟩
  next h =>
    have hlt := hv.2.2.2.1
    refine ⟨hv.1, hv.2.1, hv.2.2.1, ?_, hv.2.2.2.2⟩
    change (r.TICK + 1).toNat < _
    rw [tick_succ (by omega)]
    omega

theorem valid_refresh {p : Params} {r : Regs W} (hw : p.ticksPerSecond ≤ 2 ^ W) (hv : r.Valid p) :
    (refresh p r).Valid p := valid_countTick hw (valid_showSlot hv)

/-- REFRESH leaves PHASE and FMT24 alone. -/
theorem refresh_keeps (p : Params) (r : Regs W) : (refresh p r).PHASE = r.PHASE ∧ (refresh p r).FMT24 = r.FMT24 := by
  unfold refresh countTick
  split
  · exact ⟨(advanceSecond_beside _).PHASE, advanceSecond_FMT24 _⟩
  · exact ⟨rfl, rfl⟩

/-- What REFRESH leaves in the display registers and the counter (R161, R166). -/
theorem refresh_display (p : Params) (r : Regs W) :
    (refresh p r).CUR = next6 r.CUR ∧ (refresh p r).DSEL = onehot6 r.CUR ∧
      (refresh p r).SEG = segmentPattern p (r.slotDigit r.CUR) ∧
      (refresh p r).TICK = if r.TICK.toNat + 1 = p.ticksPerSecond then 0 else r.TICK + 1 := by
  unfold refresh countTick
  have e : (showSlot p r).TICK = r.TICK := rfl
  rw [e]
  split
  · exact ⟨(advanceSecond_beside _).CUR, (advanceSecond_beside _).DSEL, (advanceSecond_beside _).SEG, rfl⟩
  · exact ⟨rfl, rfl, rfl, rfl⟩

/-- On a Valid state the default pre-check of HOUR_UP_ACTION never fires, and the other one only at 23 (R195). -/
theorem hourUp_eq {p : Params} {r : Regs W} (h1 : r.HT.toNat ≤ 2) (h2 : r.HU.toNat ≤ 9)
    (h3 : HourInFormat r.FMT24 r.hour) :
    hourUp p r = r.setH (if r.FMT24 then
        (if p.hourUpPrecheck = .at23 ∧ r.hour = 23 then 1 else (r.hour + 1) % 24) else r.hour % 12 + 1) := by
  have hb : r.hour ≤ 23 := by
    rcases Bool.eq_false_or_eq_true r.FMT24 with hf | hf
    · exact h3.1 hf
    · have := h3.2 hf; omega
  unfold hourUp
  by_cases hp : p.hourUpPrecheck = .at23 ∧ r.hour = 23
  · have hf : r.FMT24 = true := by
      rcases Bool.eq_false_or_eq_true r.FMT24 with hf | hf
      · exact hf
      · have := h3.2 hf; omega
    have hc : precheckHour p.hourUpPrecheck ≤ r.hour := by rw [hp.1, hp.2]; decide
    have h0 : (r.setH 0).hour = 0 := Regs.setH_hour (by omega)
    obtain ⟨d1, d2⟩ := Regs.setH_digits (r := r) (h := 0) (by omega)
    rw [if_pos hc, hourInc_eq d1 d2 (by rw [h0]; exact ⟨fun _ => by omega, fun e => absurd (hf.symm.trans e) (by decide)⟩),
      h0, hf, if_pos rfl, if_pos hp]
    have e : (r.setH 0).FMT24 = true := hf
    rw [if_pos e]
    rfl
  · have hc : ¬ precheckHour p.hourUpPrecheck ≤ r.hour := by
      intro hle
      cases hq : p.hourUpPrecheck
      · rw [hq] at hle; change 24 ≤ r.hour at hle; omega
      · rw [hq] at hle hp; change 23 ≤ r.hour at hle; exact hp ⟨rfl, by omega⟩
    rw [if_neg hc, hourInc_eq h1 h2 h3, if_neg hp]

theorem valid_hourUp {p : Params} {r : Regs W} (hv : r.Valid p) : (hourUp p r).Valid p := by
  rw [hourUp_eq hv.1.1 hv.1.2.1 hv.2.1]
  refine Regs.valid_setH hv ⟨fun hf => ?_, fun hf => ?_⟩
  · rw [if_pos hf]; split <;> omega
  · rw [hf, if_neg (by decide)]; omega

/-- HOUR_UP_ACTION writes the hour pair only. -/
theorem hourUp_keeps (p : Params) (r : Regs W) :
    (hourUp p r).MT = r.MT ∧ (hourUp p r).MU = r.MU ∧ (hourUp p r).ST = r.ST ∧ (hourUp p r).SU = r.SU ∧
      (hourUp p r).FMT24 = r.FMT24 := by
  unfold hourUp
  split
  · exact hourInc_keeps (r.setH 0)
  · exact hourInc_keeps r

theorem hourUp_beside (p : Params) (r : Regs W) : r.SameBesideTime (hourUp p r) := by
  unfold hourUp
  split
  · exact (setH_beside r 0).trans (hourInc_beside _)
  · exact hourInc_beside r

/-- The same registers at another phase. -/
def Regs.atPhase (r : Regs W) (v : BitVec 3) : Regs W := { r with PHASE := v }

@[simp] theorem Regs.atPhase_atPhase (r : Regs W) (v w : BitVec 3) : (r.atPhase v).atPhase w = r.atPhase w := rfl

theorem toggleFormat_atPhase (r : Regs W) (v : BitVec 3) : toggleFormat (r.atPhase v) = (toggleFormat r).atPhase v := rfl

theorem incMinute_atPhase (r : Regs W) (v : BitVec 3) : incMinute (r.atPhase v) = (incMinute r).atPhase v := by
  have e : (r.atPhase v).MU = r.MU := rfl
  unfold incMinute
  rw [e]
  split <;> rfl

theorem decMinute_atPhase (r : Regs W) (v : BitVec 3) : decMinute (r.atPhase v) = (decMinute r).atPhase v := by
  have e : (r.atPhase v).MU = r.MU := rfl
  unfold decMinute
  rw [e]
  split <;> rfl

theorem hourCarry_atPhase (r : Regs W) (v : BitVec 3) : hourCarry (r.atPhase v) = (hourCarry r).atPhase v := by
  have e : (r.atPhase v).HU = r.HU := rfl
  unfold hourCarry
  rw [e]
  split <;> rfl

theorem hourWrap_atPhase (r : Regs W) (v : BitVec 3) : hourWrap (r.atPhase v) = (hourWrap r).atPhase v := by
  have e : (r.atPhase v).hour = r.hour := rfl
  have f : (r.atPhase v).FMT24 = r.FMT24 := rfl
  unfold hourWrap
  rw [e, f]
  split
  · rfl
  · split <;> rfl

theorem hourInc_atPhase (r : Regs W) (v : BitVec 3) : hourInc (r.atPhase v) = (hourInc r).atPhase v := by
  rw [hourInc, hourCarry_atPhase, hourWrap_atPhase, ← hourInc]

theorem decHour_atPhase (r : Regs W) (v : BitVec 3) : decHour (r.atPhase v) = (decHour r).atPhase v := by
  have e : (r.atPhase v).hour = r.hour := rfl
  have f : (r.atPhase v).FMT24 = r.FMT24 := rfl
  have g : (r.atPhase v).HU = r.HU := rfl
  unfold decHour
  rw [e, f, g]
  split
  · rfl
  · split
    · rfl
    · split <;> rfl

theorem hourUp_atPhase (p : Params) (r : Regs W) (v : BitVec 3) : hourUp p (r.atPhase v) = (hourUp p r).atPhase v := by
  have e : (r.atPhase v).hour = r.hour := rfl
  unfold hourUp
  rw [e]
  split
  · exact hourInc_atPhase (r.setH 0) v
  · exact hourInc_atPhase r v

/-- No action reads or writes PHASE. -/
theorem action_atPhase (p : Params) (k : Nat) (r : Regs W) (v : BitVec 3) :
    action p k (r.atPhase v) = (action p k r).atPhase v := by
  unfold action
  split
  · exact toggleFormat_atPhase r v
  · exact incMinute_atPhase r v
  · exact decMinute_atPhase r v
  · exact hourUp_atPhase p r v
  · exact decHour_atPhase r v

theorem poll_atPhase (p : Params) (k : Nat) (l : Bool) (r : Regs W) (v : BitVec 3) :
    poll p k l (r.atPhase v) = (poll p k l r).atPhase v := by
  unfold poll
  split
  · exact action_atPhase p k r v
  · rfl

theorem advanceSecond_atPhase (r : Regs W) (v : BitVec 3) :
    advanceSecond (r.atPhase v) = (advanceSecond r).atPhase v := by
  unfold advanceSecond carryMinute
  simp only [show (r.atPhase v).SU = r.SU from rfl, show (r.atPhase v).ST = r.ST from rfl,
    show (r.atPhase v).MU = r.MU from rfl, show (r.atPhase v).MT = r.MT from rfl]
  split
  · rfl
  · split
    · rfl
    · split
      · rfl
      · split
        · rfl
        · exact hourInc_atPhase { r with MT := 0, MU := 0, ST := 0, SU := 0 } v

/-- REFRESH neither reads nor writes PHASE. -/
theorem refresh_atPhase (p : Params) (r : Regs W) (v : BitVec 3) : refresh p (r.atPhase v) = (refresh p r).atPhase v := by
  have e : showSlot p (r.atPhase v) = (showSlot p r).atPhase v := rfl
  have f : ((showSlot p r).atPhase v).TICK = (showSlot p r).TICK := rfl
  unfold refresh countTick
  rw [e, f, advanceSecond_atPhase]
  split <;> rfl

theorem valid_action {p : Params} {k : Nat} {r : Regs W} (hv : r.Valid p) : (action p k r).Valid p := by
  unfold action
  split
  · exact valid_toggleFormat hv
  · exact valid_incMinute hv
  · exact valid_decMinute hv
  · exact valid_hourUp hv
  · exact valid_decHour hv

theorem action_beside (p : Params) (k : Nat) (r : Regs W) : r.SameBesideTime (action p k r) := by
  unfold action
  split
  · exact toggleFormat_beside r
  · exact incMinute_beside r
  · exact decMinute_beside r
  · exact hourUp_beside p r
  · exact decHour_beside r

theorem valid_poll {p : Params} {k : Nat} {l : Bool} {r : Regs W} (hv : r.Valid p) : (poll p k l r).Valid p := by
  unfold poll
  split
  · exact valid_action hv
  · exact hv

theorem poll_beside (p : Params) (k : Nat) (l : Bool) (r : Regs W) : r.SameBesideTime (poll p k l r) := by
  unfold poll
  split
  · exact action_beside p k r
  · exact ⟨rfl, rfl, rfl, rfl, rfl⟩

/-- STEP in a poll phase. -/
theorem sequencerStep_poll {p : Params} {r : Regs W} (b : Lines) (h : r.PHASE.toNat ≤ 4) :
    sequencerStep b p r =
      (poll p r.PHASE.toNat (b.getLsbD r.PHASE.toNat) r).atPhase (BitVec.ofNat 3 (r.PHASE.toNat + 1)) := by
  rw [sequencerStep, runPhase, if_pos h, next6, Nat.mod_eq_of_lt (by omega)]
  rfl

/-- STEP in the REFRESH phase. -/
theorem sequencerStep_refresh {p : Params} {r : Regs W} (b : Lines) (h : r.PHASE.toNat = 5) :
    sequencerStep b p r = (refresh p r).atPhase 0 := by
  rw [sequencerStep, runPhase, if_neg (by omega), next6, h]
  rfl

theorem valid_runPhase {b : Lines} {p : Params} {r : Regs W} (hw : p.ticksPerSecond ≤ 2 ^ W) (hv : r.Valid p) :
    (runPhase b p r).Valid p := by
  unfold runPhase
  split
  · exact valid_poll hv
  · exact valid_refresh hw hv

theorem valid_sequencerStep {b : Lines} {p : Params} {r : Regs W} (hw : p.ticksPerSecond ≤ 2 ^ W)
    (hv : r.Valid p) : (sequencerStep b p r).Valid p := by
  have h := valid_runPhase (b := b) hw hv
  refine ⟨h.1, h.2.1, h.2.2.1, h.2.2.2.1, ?_⟩
  change (next6 r.PHASE).toNat ≤ 5
  rw [next6_toNat]
  omega

end Sys2Proof.Machine
end

