-- ==== Sys2Proof/Laws/Exec.lean ====
section
/-! SUPPORT. What `exec` and `step` can do, said once per operation and once for all. -/

namespace Sys2Proof.Machine

variable {W : Nat}

/-- The register effect of an operation that begins with `require_valid()` (R100, R211); none for the others. -/
def effect {W : Nat} : Instr → Option (Params → Regs W → Regs W)
  | .toggleFormat => some fun _ => toggleFormat
  | .incMinute => some fun _ => incMinute
  | .decMinute => some fun _ => decMinute
  | .incHour => some fun _ => hourInc
  | .decHour => some fun _ => decHour
  | .advanceSecond => some fun _ => advanceSecond
  | .refresh => some refresh
  | .hourUpAction => some hourUp
  | .step btn => some (sequencerStep btn)
  | .set _ _ _ _ _ _ => none
  | .segdec _ => none
  | .reservedAB _ => none
  | .reservedCF _ => none

/-- An operation with a register effect is that effect, guarded. -/
theorem exec_effect {i : Instr} {s : State} {f : Params → Regs s.width → Regs s.width} (h : effect i = some f) :
    exec i s = guarded i s f := by
  cases i <;> simp only [effect, Option.some.injEq, reduceCtorEq] at h <;> subst h <;> rfl

/-- Such an operation completes where FAULT is empty and the registers are Valid. -/
theorem exec_of_valid {i : Instr} {s : State} {f : Params → Regs s.width → Regs s.width} (h : effect i = some f)
    (hf : s.FAULT = ⟨false⟩) (hv : s.regs.Valid s.params) : exec i s = .next (s.withRegs (f s.params s.regs)) :=
  (exec_effect h).trans (guarded_of_valid hf hv)

/-- Such an operation completes on a sound state. -/
theorem exec_of_sound {i : Instr} {s : State} {f : Params → Regs s.width → Regs s.width} (h : effect i = some f) (hs : s.Sound) :
    exec i s = .next (s.withRegs (f s.params s.regs)) := exec_of_valid h hs.1.1 hs.2

/-- The same at registers that an earlier operation left: a run of operations stays a run on registers of one width. -/
theorem exec_withRegs {i : Instr} {s : State} {f : Params → Regs s.width → Regs s.width} (h : effect i = some f)
    (hf : s.FAULT = ⟨false⟩) {r : Regs s.width} (hv : r.Valid s.params) :
    exec i (s.withRegs r) = .next (s.withRegs (f s.params r)) := exec_of_valid (s := s.withRegs r) h hf hv

/-- It raises INVALID_STATE on an enabled state that is not Valid. -/
theorem exec_of_invalid {i : Instr} {s : State} {f : Params → Regs s.width → Regs s.width} (h : effect i = some f)
    (hf : s.FAULT = ⟨false⟩) (hv : ¬ s.regs.Valid s.params) : exec i s = .fault (.invalidState i s.markFault) :=
  (exec_effect h).trans (guarded_of_invalid hf hv)

/-- SET completes where FAULT is empty and the written registers are Valid (R102). -/
theorem exec_set_of_valid {ht : BitVec 2} {hu : BitVec 4} {mt : BitVec 3} {mu : BitVec 4} {st : BitVec 3} {su : BitVec 4}
    {s : State} (hf : s.FAULT = ⟨false⟩) (hv : (s.regs.writeDigits ht hu mt mu st su).Valid s.params) :
    exec (.set ht hu mt mu st su) s = .next (s.withRegs (s.regs.writeDigits ht hu mt mu st su)) :=
  (whenEnabled_of_enabled hf).trans (finishValid_of_valid hv)

/-- SET raises INVALID_STATE where they are not (R102). -/
theorem exec_set_of_invalid {ht : BitVec 2} {hu : BitVec 4} {mt : BitVec 3} {mu : BitVec 4} {st : BitVec 3}
    {su : BitVec 4} {s : State} (hf : s.FAULT = ⟨false⟩)
    (hv : ¬ (s.regs.writeDigits ht hu mt mu st su).Valid s.params) :
    exec (.set ht hu mt mu st su) s = .fault (.invalidState (.set ht hu mt mu st su) s.markFault) :=
  (whenEnabled_of_enabled hf).trans (finishValid_of_invalid hv)

/-- The operations that check their state are those with a register effect. -/
theorem effect_of_checksState {i : Instr} (h : checksState i = true) : ∃ f : Params → Regs W → Regs W, effect i = some f := by
  cases i <;> first | exact ⟨_, rfl⟩ | (exact absurd h (by decide)) | cases h

/-- Every register effect keeps Valid (R110, R169). -/
theorem valid_effect {i : Instr} {f : Params → Regs W → Regs W} (h : effect i = some f) {p : Params} {r : Regs W}
    (hw : p.ticksPerSecond ≤ 2 ^ W) (hv : r.Valid p) : (f p r).Valid p := by
  cases i <;> simp only [effect, Option.some.injEq, reduceCtorEq] at h <;> subst h
  · exact valid_toggleFormat hv
  · exact valid_incMinute hv
  · exact valid_decMinute hv
  · exact valid_hourInc hv
  · exact valid_decHour hv
  · exact valid_advanceSecond hv
  · exact valid_refresh hw hv
  · exact valid_hourUp hv
  · exact valid_sequencerStep hw hv

/-- The four ways in which an operation gives a next state. -/
theorem exec_next {i : Instr} {s t : State} (h : exec i s = .next t) :
    (∃ f, effect i = some f ∧ (s.FAULT = ⟨false⟩ ∧ s.regs.Valid s.params) ∧ t = s.withRegs (f s.params s.regs)) ∨
    (∃ ht hu mt mu st su, i = .set ht hu mt mu st su ∧ s.FAULT = ⟨false⟩ ∧
      (s.regs.writeDigits ht hu mt mu st su).Valid s.params ∧
      t = s.withRegs (s.regs.writeDigits ht hu mt mu st su)) ∨
    (∃ d, i = .segdec d ∧ t = s.withDecoded (segmentPattern s.params d)) ∨
    (((∃ w, i = .reservedAB w) ∨ ∃ w, i = .reservedCF w) ∧ t = s.markRefused .reservedOpcode) := by
  cases he : (effect i : Option (Params → Regs s.width → Regs s.width)) with
  | some f =>
    rw [exec_effect he] at h
    obtain ⟨h1, h2, h3⟩ := guarded_next h
    exact .inl ⟨f, rfl, ⟨h1, h2⟩, h3⟩
  | none =>
    cases i <;> simp only [effect, reduceCtorEq] at he
    case set ht hu mt mu st su =>
      obtain ⟨h1, h2⟩ := whenEnabled_next h
      obtain ⟨h3, h4⟩ := finishValid_next h2
      exact .inr (.inl ⟨ht, hu, mt, mu, st, su, rfl, h1, h3, h4⟩)
    case segdec d => exact .inr (.inr (.inl ⟨d, rfl, (Host.Outcome.next.inj h).symm⟩))
    case reservedAB w => exact .inr (.inr (.inr ⟨.inl ⟨w, rfl⟩, (Host.Outcome.next.inj h).symm⟩))
    case reservedCF w => exact .inr (.inr (.inr ⟨.inr ⟨w, rfl⟩, (Host.Outcome.next.inj h).symm⟩))

/-- The two ways in which an operation stops. -/
theorem exec_fault {i : Instr} {s : State} {e : Fault} (h : exec i s = .fault e) :
    (s.FAULT ≠ ⟨false⟩ ∧ e = .faulted i s) ∨
    (s.FAULT = ⟨false⟩ ∧ e = .invalidState i s.markFault ∧
      ((∃ f : Params → Regs s.width → Regs s.width, effect i = some f) ∧ ¬ s.regs.Valid s.params ∨
        ∃ ht hu mt mu st su, i = .set ht hu mt mu st su ∧
          ¬ (s.regs.writeDigits ht hu mt mu st su).Valid s.params)) := by
  by_cases hf : s.FAULT = ⟨false⟩
  · cases he : (effect i : Option (Params → Regs s.width → Regs s.width)) with
    | some f =>
      rw [exec_effect he] at h
      by_cases hv : s.regs.Valid s.params
      · rw [guarded_of_valid hf hv] at h
        cases h
      · rw [guarded_of_invalid hf hv] at h
        exact .inr ⟨hf, (Host.Outcome.fault.inj h).symm, .inl ⟨⟨f, rfl⟩, hv⟩⟩
    | none =>
      cases i <;> simp only [effect, reduceCtorEq] at he
      case set ht hu mt mu st su =>
        change whenEnabled _ s _ = _ at h
        rw [whenEnabled_of_enabled hf] at h
        by_cases hv : (s.regs.writeDigits ht hu mt mu st su).Valid s.params
        · rw [finishValid_of_valid hv] at h
          cases h
        · rw [finishValid_of_invalid hv] at h
          exact .inr ⟨hf, (Host.Outcome.fault.inj h).symm, .inr ⟨ht, hu, mt, mu, st, su, rfl, hv⟩⟩
      case segdec d => cases h
      case reservedAB w => cases h
      case reservedCF w => cases h
  · cases he : (effect i : Option (Params → Regs s.width → Regs s.width)) with
    | some f =>
      rw [exec_effect he, guarded_of_faulted hf] at h
      exact .inl ⟨hf, (Host.Outcome.fault.inj h).symm⟩
    | none =>
      cases i <;> simp only [effect, reduceCtorEq] at he
      case set ht hu mt mu st su =>
        change whenEnabled _ s _ = _ at h
        rw [whenEnabled_of_faulted hf] at h
        exact .inl ⟨hf, (Host.Outcome.fault.inj h).symm⟩
      case segdec d => cases h
      case reservedAB w => cases h
      case reservedCF w => cases h

/-- A step is one of three things: a waiting operation, a waiting word that matches no row, the sequencer alone. -/
theorem step_cases (s : State) :
    (∃ x rest i, s.env.pending = x :: rest ∧ decode x = .ok i ∧ step s = runOp i (s.withPending rest)) ∨
    (∃ x rest e, s.env.pending = x :: rest ∧ decode x = .error e ∧
      step s = .next ((s.withPending rest).markRefused e)) ∨
    (s.env.pending = [] ∧ step s = runOp (.step (drawnLines s.env.draws)) s) := by
  unfold step stepCore
  cases hp : s.env.pending with
  | nil => exact .inr (.inr ⟨rfl, rfl⟩)
  | cons x rest =>
    cases hd : decode x with
    | ok i => exact .inl ⟨x, rest, i, rfl, hd, by simp only [runIssue, hd]⟩
    | error e => exact .inr (.inl ⟨x, rest, e, rfl, hd, by simp only [runIssue, hd, refuse]⟩)

/-- What a step adds around an operation: an operation that is no STEP at PHASE 5 runs at the state as it stands. -/
theorem runOp_of_not_ends {i : Instr} {s : State} (h : endsIteration i s.regs.PHASE = false) :
    runOp i s = exec i s := by
  rw [runOp, h, State.countDraw_false]

/-- An operation ends an iteration exactly when it is STEP at PHASE 5 (R212). -/
theorem endsIteration_iff {i : Instr} {v : BitVec 3} : endsIteration i v = true ↔ (∃ b, i = .step b) ∧ v = 5 := by
  cases i <;> simp [endsIteration]

/-- The sequencer's own step on a Valid state (R210, R211): the lines of the current draw, and the next draw after PHASE 5. -/
theorem step_alone {s : State} (hp : s.env.pending = []) (hf : s.FAULT = ⟨false⟩) (hv : s.regs.Valid s.params) :
    step s = .next ((s.countDraw (s.regs.PHASE == 5)).withRegs
      (sequencerStep (drawnLines s.env.draws) s.params s.regs)) := by
  have e : step s = runOp (.step (drawnLines s.env.draws)) s := by
    unfold step stepCore
    rw [hp]
    rfl
  rw [e, runOp]
  exact exec_of_valid (s := s.countDraw _) rfl hf hv

/-- A run of one more operation. -/
theorem execAll_cons {i : Instr} {is : List Instr} {s t : State} (h : exec i s = .next t) :
    execAll (i :: is) s = execAll is t := by
  simp only [execAll, h]

end Sys2Proof.Machine
end

