-- ==== Sys2Proof/Laws/PerInstr.lean ====
section
/-! SUPPORT. Statements about every operation as an encoded thing, one lemma per constructor. -/

namespace Sys2Proof.Laws.RowMatch

/-- The encoding of an operation with an operation word lies in the operation's own row of the opcode map (R76);
SEGDEC, which has no row of 24 bits, encodes to the digit it decodes. -/
def Statement (i : Instr) : Prop :=
  i.wellFormed = true →
    match rowOf i with
    | some row => ∃ w, encode i = .opWord w ∧ row.holds w = true
    | none => ∃ d, i = .segdec d ∧ encode i = .digit d

/-- A word with the opcode of SET in bits 23:20 lies in SET's row. -/
theorem holds_set (ht : BitVec 2) (hu : BitVec 4) (mt : BitVec 3) (mu : BitVec 4) (st : BitVec 3) (su : BitVec 4) :
    (0x0#4 ++ ht ++ hu ++ mt ++ mu ++ st ++ su) &&& 0xF00000#24 = 0x000000#24 := by
  have low : ∀ j : Fin 20, (0xF00000#24).getLsbD j = false := by decide
  apply BitVec.eq_of_getLsbD_eq
  intro i _
  rw [BitVec.getLsbD_and]
  by_cases h : i < 20
  · rw [low ⟨i, h⟩]
    simp
  · simp only [BitVec.getLsbD_append]
    rw [if_neg (by omega), if_neg (by omega), if_neg (by omega), if_neg (by omega), if_neg (by omega),
      if_neg (by omega)]
    simp

/-- A word with STEP's opcode and zeros in bits 19:5 lies in STEP's row. -/
theorem holds_step (b : BitVec 5) : (0x9#4 ++ 0#15 ++ b) &&& 0xFFFFE0#24 = 0x900000#24 := by
  have low : ∀ j : Fin 5, (0xFFFFE0#24).getLsbD j = false ∧ (0x900000#24).getLsbD j = false := by decide
  have high : ∀ j : Fin 19, ((0x9#4 ++ 0#15).getLsbD j && (0xFFFFE0#24).getLsbD (j + 5)) =
      (0x900000#24).getLsbD (j + 5) := by decide
  apply BitVec.eq_of_getLsbD_eq
  intro i hi
  rw [BitVec.getLsbD_and, BitVec.getLsbD_append]
  by_cases h : i < 5
  · rw [(low ⟨i, h⟩).1, (low ⟨i, h⟩).2]
    simp
  · have e := high ⟨i - 5, by omega⟩
    simp only [show i - 5 + 5 = i by omega] at e
    rw [if_neg h]
    exact e

theorem set (ht : BitVec 2) (hu : BitVec 4) (mt : BitVec 3) (mu : BitVec 4) (st : BitVec 3) (su : BitVec 4) :
    Statement (.set ht hu mt mu st su) := by
  intro _
  refine ⟨_, rfl, ?_⟩
  simp only [OpRow.holds, beq_iff_eq]
  exact holds_set ht hu mt mu st su

theorem toggleFormat : Statement .toggleFormat := fun _ => ⟨_, rfl, by decide⟩
theorem incMinute : Statement .incMinute := fun _ => ⟨_, rfl, by decide⟩
theorem decMinute : Statement .decMinute := fun _ => ⟨_, rfl, by decide⟩
theorem incHour : Statement .incHour := fun _ => ⟨_, rfl, by decide⟩
theorem decHour : Statement .decHour := fun _ => ⟨_, rfl, by decide⟩
theorem advanceSecond : Statement .advanceSecond := fun _ => ⟨_, rfl, by decide⟩
theorem refresh : Statement .refresh := fun _ => ⟨_, rfl, by decide⟩
theorem hourUpAction : Statement .hourUpAction := fun _ => ⟨_, rfl, by decide⟩

theorem step (btn : Lines) : Statement (.step btn) := by
  intro _
  refine ⟨_, rfl, ?_⟩
  simp only [OpRow.holds, beq_iff_eq]
  exact holds_step btn

theorem segdec (d : Digit) : Statement (.segdec d) := fun _ => ⟨d, rfl, rfl⟩

theorem reservedAB (word : OpWord) : Statement (.reservedAB word) := fun h => ⟨word, rfl, h⟩

theorem reservedCF (word : OpWord) : Statement (.reservedCF word) := fun h => ⟨word, rfl, h⟩

end Sys2Proof.Laws.RowMatch
end

