-- ==== Sys2Proof/Tests/Slice0.lean ====
section
/-! SUPPORT. The model's own tests. Expected results are those of spec/95_test_vectors.md (the part is named at each
group) or of a rule's own example; none comes from the model. Then one witness for each obligation that has
hypotheses: concrete states and operands that meet them, at the edges of their ranges. -/

namespace Sys2Proof.Machine.Tests

/-! ### Helpers -/

/-- The reset state showing another time in a format. -/
def clk (fmt24 : Bool) (h m t : Nat) : State :=
  State.reset.withRegs
    { State.reset.regs with
      HT := BitVec.ofNat 2 (h / 10), HU := BitVec.ofNat 4 (h % 10), MT := BitVec.ofNat 3 (m / 10),
      MU := BitVec.ofNat 4 (m % 10), ST := BitVec.ofNat 3 (t / 10), SU := BitVec.ofNat 4 (t % 10), FMT24 := fmt24 }

/-- The same with the cursor and the tick counter at other values. -/
def scan (s : State) (cur : BitVec 3) (tick : Nat) : State :=
  s.withRegs { s.regs with CUR := cur, TICK := BitVec.ofNat _ tick }

/-- The same at another phase. -/
def phase (s : State) (p : BitVec 3) : State := s.withRegs { s.regs with PHASE := p }

/-- The same in an instance with another N. -/
def perSecond (s : State) (n : Nat) : State :=
  { s with params := { s.params with ticksPerSecond := n }
           regs := { s.regs with TICK := 0 } }

/-- The same in the instance whose pre-check is at 23. -/
def precheck23 (s : State) : State :=
  { s with params := { s.params with hourUpPrecheck := .at23 }
           regs := s.regs }

/-- The format, hour, minute and second of a next state. -/
def timeAfter : Out → Option (Bool × Nat × Nat × Nat)
  | .next t => some (t.regs.FMT24, t.regs.hour, t.regs.minute, t.regs.second)
  | _ => none

/-- SEG, DSEL, CUR, TICK and PHASE of a next state. -/
def displayAfter : Out → Option (BitVec 7 × BitVec 6 × BitVec 3 × Nat × BitVec 3)
  | .next t => some (t.regs.SEG, t.regs.DSEL, t.regs.CUR, t.regs.TICK.toNat, t.regs.PHASE)
  | _ => none

/-- The operation that raised INVALID_STATE. -/
def invalidOp : Out → Option Instr
  | .fault (.invalidState i _) => some i
  | _ => none

/-- The REFUSED mark of a next state, with its packed time and its PHASE. -/
def marksAfter : Out → Option (RefusedSet × TimeWord × BitVec 3)
  | .next t => some (t.REFUSED, t.regs.timeWord, t.regs.PHASE)
  | _ => none

/-! ### Well-formed operations: the smoke test -/

theorem test_illFormed_reservedAB :
    (Instr.reservedAB 0x900000).wellFormed = false ∧ (Instr.reservedAB 0xC00000).wellFormed = false ∧
    (Instr.reservedAB 0xA00000).wellFormed = true ∧ (Instr.reservedAB 0xBFFFFF).wellFormed = true := by decide

theorem test_illFormed_reservedCF :
    (Instr.reservedCF 0xBFFFFF).wellFormed = false ∧ (Instr.reservedCF 0x000000).wellFormed = false ∧
    (Instr.reservedCF 0xC00000).wellFormed = true ∧ (Instr.reservedCF 0xFFFFFF).wellFormed = true := by decide

/-! ### Decoding: words written bit by bit from R72 to R76 (part 2.10) -/

theorem test_decode_set : decodeTableWord 24 0b0000_10_0011_101_1001_101_1001 = some (.set 2 3 5 9 5 9) := by decide
theorem test_decode_set_1234 : decodeTableWord 24 0x049A56 = some (.set 1 2 3 4 5 6) := by decide
theorem test_decode_set_outOfRange : decodeTableWord 24 0x0C0000 = some (.set 3 0 0 0 0 0) := by decide
theorem test_decode_toggleFormat : decodeTableWord 24 0b0001_00000000000000000000 = some .toggleFormat := by decide
theorem test_decode_incMinute : decodeTableWord 24 0b0010_00000000000000000000 = some .incMinute := by decide
theorem test_decode_decMinute : decodeTableWord 24 0b0011_00000000000000000000 = some .decMinute := by decide
theorem test_decode_incHour : decodeTableWord 24 0b0100_00000000000000000000 = some .incHour := by decide
theorem test_decode_decHour : decodeTableWord 24 0b0101_00000000000000000000 = some .decHour := by decide
theorem test_decode_advanceSecond : decodeTableWord 24 0b0110_00000000000000000000 = some .advanceSecond := by decide
theorem test_decode_refresh : decodeTableWord 24 0b0111_00000000000000000000 = some .refresh := by decide
theorem test_decode_hourUpAction : decodeTableWord 24 0b1000_00000000000000000000 = some .hourUpAction := by decide
theorem test_decode_step : decodeTableWord 24 0b1001_000000000000000_11110 = some (.step 0b11110) := by decide
theorem test_decode_segdec : decodeTableWord 8 0b1001 = some (.segdec 9) := by decide
theorem test_decode_reservedAB : decodeTableWord 24 0xA00000 = some (.reservedAB 0xA00000) := by decide
theorem test_decode_reservedCF : decodeTableWord 24 0xFFFFFF = some (.reservedCF 0xFFFFFF) := by decide
theorem test_decode_rejects :
    decodeOp 0x100001 = .error .nonzeroReservedField ∧ decodeOp 0x900020 = .error .nonzeroReservedField ∧
    decodeOp 0x200100 = .error .nonzeroReservedField := by decide

/-! ### The operations, one step each -/

/-- Part 2.11 and R102's example. -/
theorem test_set :
    timeAfter (exec (.set 2 3 5 9 5 9) State.reset) = some (true, 23, 59, 59) ∧
    invalidOp (exec (.set 2 4 0 0 0 0) State.reset) = some (.set 2 4 0 0 0 0) ∧
    invalidOp (exec (.set 0 0 0 0 0 0) (clk false 12 0 0)) = some (.set 0 0 0 0 0 0) := by decide

/-- Part 2.11. -/
theorem test_set_digits :
    (invalidOp (exec (.set 1 3 0 0 0 0) (clk false 12 0 0))).isSome = true ∧
    (invalidOp (exec (.set 0 10 0 0 0 0) State.reset)).isSome = true ∧
    (invalidOp (exec (.set 0 0 6 0 0 0) State.reset)).isSome = true ∧
    (invalidOp (exec (.set 0 0 0 0 0 15) State.reset)).isSome = true := by decide

/-- Part 2.1, from 24h mode. -/
theorem test_toggleFormat_24 :
    timeAfter (exec .toggleFormat (clk true 0 0 0)) = some (false, 12, 0, 0) ∧
    timeAfter (exec .toggleFormat (clk true 12 0 0)) = some (false, 12, 0, 0) ∧
    timeAfter (exec .toggleFormat (clk true 13 0 0)) = some (false, 1, 0, 0) ∧
    timeAfter (exec .toggleFormat (clk true 23 59 0)) = some (false, 11, 59, 0) := by and_intros <;> decide

/-- Part 2.1, from 12h mode. -/
theorem test_toggleFormat_12 :
    timeAfter (exec .toggleFormat (clk false 12 0 0)) = some (true, 0, 0, 0) ∧
    timeAfter (exec .toggleFormat (clk false 1 0 0)) = some (true, 13, 0, 0) ∧
    timeAfter (exec .toggleFormat (clk false 6 6 6)) = some (true, 18, 6, 6) := by and_intros <;> decide

/-- Part 2.2. -/
theorem test_incMinute :
    timeAfter (exec .incMinute (clk true 5 9 0)) = some (true, 5, 10, 0) ∧
    timeAfter (exec .incMinute (clk true 23 59 59)) = some (true, 23, 0, 59) ∧
    timeAfter (exec .incMinute (clk false 12 59 0)) = some (false, 12, 0, 0) := by and_intros <;> decide

/-- Part 2.3. -/
theorem test_decMinute :
    timeAfter (exec .decMinute (clk true 5 10 0)) = some (true, 5, 9, 0) ∧
    timeAfter (exec .decMinute (clk true 0 0 30)) = some (true, 0, 59, 30) := by and_intros <;> decide

/-- Part 2.4. -/
theorem test_incHour :
    timeAfter (exec .incHour (clk true 9 0 0)) = some (true, 10, 0, 0) ∧
    timeAfter (exec .incHour (clk true 19 0 0)) = some (true, 20, 0, 0) ∧
    timeAfter (exec .incHour (clk true 23 15 42)) = some (true, 0, 15, 42) ∧
    timeAfter (exec .incHour (clk false 12 0 0)) = some (false, 1, 0, 0) := by and_intros <;> decide

/-- Part 2.4, the two readings of the pre-check. -/
theorem test_hourUpAction :
    timeAfter (exec .hourUpAction (clk true 23 15 42)) = some (true, 0, 15, 42) ∧
    timeAfter (exec .hourUpAction (precheck23 (clk true 23 15 42))) = some (true, 1, 15, 42) ∧
    timeAfter (exec .hourUpAction (precheck23 (clk true 22 0 0))) = some (true, 23, 0, 0) ∧
    timeAfter (exec .hourUpAction (precheck23 (clk false 12 0 0))) = some (false, 1, 0, 0) := by and_intros <;> decide

/-- Part 2.5. -/
theorem test_decHour :
    timeAfter (exec .decHour (clk true 20 0 0)) = some (true, 19, 0, 0) ∧
    timeAfter (exec .decHour (clk true 0 30 0)) = some (true, 23, 30, 0) ∧
    timeAfter (exec .decHour (clk false 10 0 0)) = some (false, 9, 0, 0) ∧
    timeAfter (exec .decHour (clk false 1 0 0)) = some (false, 12, 0, 0) := by and_intros <;> decide

/-- Part 2.6, in 24h mode. -/
theorem test_advanceSecond_24 :
    timeAfter (exec .advanceSecond (clk true 0 0 9)) = some (true, 0, 0, 10) ∧
    timeAfter (exec .advanceSecond (clk true 0 9 59)) = some (true, 0, 10, 0) ∧
    timeAfter (exec .advanceSecond (clk true 19 59 59)) = some (true, 20, 0, 0) ∧
    timeAfter (exec .advanceSecond (clk true 23 59 59)) = some (true, 0, 0, 0) := by and_intros <;> decide

/-- Part 2.6, in 12h mode. -/
theorem test_advanceSecond_12 :
    timeAfter (exec .advanceSecond (clk false 11 59 59)) = some (false, 12, 0, 0) ∧
    timeAfter (exec .advanceSecond (clk false 12 59 59)) = some (false, 1, 0, 0) := by and_intros <;> decide

/-- Part 2.8, the display. -/
theorem test_refresh_display :
    displayAfter (exec .refresh State.reset) = some (0x3F, 0b000001, 1, 1, 0) ∧
    displayAfter (exec .refresh (scan (clk true 12 34 56) 4 10)) = some (0x5B, 0b010000, 5, 11, 0) ∧
    displayAfter (exec .refresh (scan (clk true 12 34 56) 5 10)) = some (0x06, 0b100000, 0, 11, 0) ∧
    displayAfter (exec .refresh (scan (clk true 23 59 59) 0 224)) = some (0x6F, 0b000001, 1, 0, 0) := by
  and_intros <;> decide

/-- Part 2.8, the tick accumulator, with N = 225 and N = 1. -/
theorem test_refresh_tick :
    timeAfter (exec .refresh (scan (clk true 23 59 59) 0 224)) = some (true, 0, 0, 0) ∧
    timeAfter (exec .refresh (scan (clk true 0 0 59) 2 223)) = some (true, 0, 0, 59) ∧
    timeAfter (exec .refresh (perSecond State.reset 1)) = some (true, 0, 0, 1) ∧
    displayAfter (exec .refresh (perSecond State.reset 1)) = some (0x3F, 0b000001, 1, 0, 0) := by and_intros <;> decide

/-- Part 2.9, the polls. -/
theorem test_step_polls :
    timeAfter (exec (.step 0b11110) State.reset) = some (false, 12, 0, 0) ∧
    timeAfter (exec (.step 0b11101) (phase (clk true 5 59 0) 1)) = some (true, 5, 0, 0) ∧
    timeAfter (exec (.step 0b11011) (phase (clk true 5 0 0) 2)) = some (true, 5, 59, 0) ∧
    timeAfter (exec (.step 0b10111) (phase (clk true 23 10 0) 3)) = some (true, 0, 10, 0) ∧
    timeAfter (exec (.step 0b01111) (phase (clk true 0 10 0) 4)) = some (true, 23, 10, 0) := by and_intros <;> decide

/-- Part 2.9, PHASE: a line of another phase is not read, and phase 5 reads none. -/
theorem test_step_phase :
    displayAfter (exec (.step 0b11111) State.reset) = some (0, 0, 0, 0, 1) ∧
    timeAfter (exec (.step 0b11110) (phase (clk true 0 10 0) 4)) = some (true, 0, 10, 0) ∧
    displayAfter (exec (.step 0b00000) (phase State.reset 5)) = some (0x3F, 0b000001, 1, 1, 0) := by
  and_intros <;> decide

/-- Part 2.7, and R150's example. -/
theorem test_segdec :
    segmentPattern defaultParams 8 = 0x7F ∧ segmentPattern defaultParams 9 = 0x6F ∧
    segmentPattern defaultParams 10 = 0x00 ∧ segmentPattern defaultParams 12 = 0x00 := by decide

/-- Part 2.11, the refusals: presented at the direct interface, they mark and change no hardware state. -/
theorem test_refusals :
    step ((phase (clk true 12 34 56) 3).withFetchWord 24 0xB00000) =
      .next { phase (clk true 12 34 56) 3 with REFUSED := ⟨true, false⟩ } ∧
    step ((phase (clk true 12 34 56) 3).withFetchWord 24 0xFFFFFF) =
      .next { phase (clk true 12 34 56) 3 with REFUSED := ⟨true, false⟩ } ∧
    step ((phase (clk true 12 34 56) 3).withFetchWord 24 0x200100) =
      .next { phase (clk true 12 34 56) 3 with REFUSED := ⟨false, true⟩ } := ⟨rfl, rfl, rfl⟩

/-- Part 3, P1 and P5: a program's lines. -/
theorem test_assemble :
    (assemble ["SET 23:59:58".toList, "ADVANCE_SECOND * 2 ; carry".toList, "".toList, "DEC_MINUTE".toList]).map
      (List.map encode) = some [.opWord 0x08ECD8, .opWord 0x600000, .opWord 0x600000, .opWord 0x300000] ∧
    (assembleLine "ITERATE 0b11101".toList).map (List.map encode) = some (List.replicate 6 (.opWord 0x90001D)) := by
  decide

/-! ### Witnesses: states and operands that meet the hypotheses of each obligation -/

/-- A register file that is not Valid: hour 24 in 24h mode. -/
def badHour : State := clk true 24 0 0

/-- A state whose FAULT set is not empty. -/
def faulted : State := State.reset.markFault

theorem witness_EncodeThenDecode :
    (Instr.set 3 15 7 15 7 15).wellFormed = true ∧ (Instr.step 0b00000).wellFormed = true ∧
    (Instr.segdec 15).wellFormed = true ∧ (Instr.reservedAB 0xBFFFFF).wellFormed = true ∧
    (Instr.reservedCF 0xC00000).wellFormed = true := by decide

theorem witness_DecodeThenEncode :
    decode (.opWord 0x0FFFFF) = .ok (.set 3 15 7 15 7 15) ∧ decode (.digit 15) = .ok (.segdec 15) ∧
    decode (.opWord 0xBFFFFF) = .ok (.reservedAB 0xBFFFFF) := by decide

theorem witness_OpcodeMapIsUnambiguous :
    (∃ a ∈ opRows, a.holds 0x90001F = true) ∧ decodeOp 0x90001F = .ok (.step 0b11111) ∧
    decodeOp 0x900020 = .error .nonzeroReservedField ∧ decodeOp 0x8FFFFF = .error .nonzeroReservedField := by decide

theorem witness_StepRunsWaitingOperation :
    (State.reset.withFetchWord 24 0x200000).env.pending = .opWord 0x200000 :: [] ∧
    decode (.opWord 0x200000) = .ok .incMinute ∧ decode (.opWord 0x900000) = .ok (.step 0b00000) ∧
    ((phase State.reset 5).withFetchWord 24 0x900000).env.pending = .opWord 0x900000 :: [] ∧
    ((phase State.reset 5).withFetchWord 24 0x900000).regs.PHASE = 5 := by decide

theorem witness_StepAloneIsTheSequencer :
    State.reset.env.pending = [] ∧ State.reset.regs.PHASE ≠ 5 ∧
    (phase State.reset 5).env.pending = [] ∧ (phase State.reset 5).regs.PHASE = 5 := by decide

theorem witness_PlacedWordRunsNext :
    decodeTableWord 24 0x700000 = some .refresh ∧ decodeTableWord 24 0xC00000 = some (.reservedCF 0xC00000) ∧
    decodeTableWord 8 15 = some (.segdec 15) ∧ decodeTableWord 24 0x90001F = some (.step 0b11111) ∧
    (phase State.reset 5).regs.PHASE = 5 := by decide

theorem witness_SetOverwritesDigits :
    State.reset.Unmarked ∧ (clk false 12 0 0).Unmarked ∧
    (State.reset.regs.writeDigits 2 3 5 9 5 9).Valid State.reset.params ∧
    ¬ (State.reset.regs.writeDigits 2 4 0 0 0 0).Valid State.reset.params ∧
    ((clk false 12 0 0).regs.writeDigits 0 1 0 0 0 0).Valid State.reset.params ∧
    ¬ ((clk false 12 0 0).regs.writeDigits 0 0 0 0 0 0).Valid State.reset.params := by and_intros <;> decide

theorem witness_ToggleFormatConverts :
    (clk true 0 0 0).Sound ∧ (clk true 12 0 0).Sound ∧ (clk true 13 0 0).Sound ∧ (clk true 23 59 59).Sound ∧
    (clk false 12 0 0).Sound ∧ (clk false 1 0 0).Sound ∧
    badHour.Unmarked ∧ ¬ badHour.regs.Valid badHour.params := by and_intros <;> decide

theorem witness_MinuteStepsModSixty : (clk true 0 0 0).Sound ∧ (clk false 12 59 59).Sound := by and_intros <;> decide

theorem witness_HourStepsInFormat :
    (clk true 0 0 0).Sound ∧ (clk true 23 0 0).Sound ∧ (clk false 1 0 0).Sound ∧ (clk false 12 0 0).Sound := by
  and_intros <;> decide

theorem witness_HourUpActionPrecheck :
    (clk true 23 0 0).Sound ∧ (clk true 23 0 0).params.hourUpPrecheck = .at24 ∧
    (precheck23 (clk true 22 0 0)).Sound ∧ (precheck23 (clk true 22 0 0)).regs.hour = 22 ∧
    (precheck23 (clk true 23 0 0)).Sound ∧ (precheck23 (clk true 23 0 0)).params.hourUpPrecheck = .at23 ∧
    (precheck23 (clk true 23 0 0)).regs.hour = 23 := by and_intros <;> decide

theorem witness_AdvanceSecondAddsOne : (clk true 23 59 59).Sound ∧ (clk false 12 59 59).Sound := by
  and_intros <;> decide

theorem witness_ManySecondsAddUp : (clk true 0 0 0).Sound ∧ (clk false 11 59 59).Sound := by and_intros <;> decide

theorem witness_FullDayVisitsEachTimeOnce :
    (clk true 0 0 0).Sound ∧ (clk true 23 59 59).regs.Valid (clk true 0 0 0).params ∧
    (clk true 23 59 59).regs.FMT24 = (clk true 0 0 0).regs.FMT24 ∧
    (clk false 12 0 0).Sound ∧ (clk false 11 59 59).regs.Valid (clk false 12 0 0).params ∧
    (clk false 11 59 59).regs.FMT24 = (clk false 12 0 0).regs.FMT24 := by and_intros <;> decide

theorem witness_DoubleToggleTable :
    (clk true 0 0 0).Sound ∧ (clk true 1 0 0).Sound ∧ (clk true 11 0 0).Sound ∧ (clk true 12 0 0).Sound ∧
    (clk true 13 0 0).Sound ∧ (clk false 12 0 0).Sound ∧ (clk true 0 0 0).regs.FMT24 = true ∧
    (clk false 12 0 0).regs.FMT24 = false := by and_intros <;> decide

theorem witness_MinuteRoundTrip : (clk true 5 59 0).Sound ∧ (clk true 5 0 0).Sound := by and_intros <;> decide

theorem witness_TimeKeeperFootprint : badHour.Unmarked ∧ (clk false 12 59 59).Unmarked := by decide

theorem witness_SegdecGivesPattern :
    (0 : Digit).toNat = (0 : Fin 10).val ∧ (9 : Digit).toNat = (9 : Fin 10).val ∧ 10 ≤ (10 : Digit).toNat ∧
    10 ≤ (15 : Digit).toNat := by decide

theorem witness_RefreshWhole :
    (scan (clk true 23 59 59) 5 224).Sound ∧ (scan (clk true 23 59 59) 0 223).Sound ∧
    (perSecond (clk false 12 59 59) 1).Sound := by and_intros <;> decide

theorem witness_OneDecoderForAllSlots :
    (scan (clk true 12 34 51) 0 0).Sound ∧ (1 : Digit).toNat = (clk true 12 34 51).regs.SU.toNat ∧
    (scan (clk true 12 34 51) 5 0).Sound ∧ (1 : Digit).toNat = (clk true 12 34 51).regs.HT.toNat := by decide

theorem witness_SegdecIsTheDisplayDecoder :
    (scan (clk true 12 34 56) 5 0).Sound ∧ (1 : Digit).toNat = (clk true 12 34 56).regs.HT.toNat ∧
    badHour.params.segTable = (clk true 12 34 56).params.segTable := by decide

theorem witness_ScanVisitsSlotsInOrder : (scan (clk true 0 0 0) 0 0).Sound ∧ (scan (clk true 0 0 0) 5 224).Sound := by
  and_intros <;> decide

theorem witness_TicksBecomeSeconds : (scan (clk true 0 0 59) 0 224).Sound ∧ (perSecond State.reset 3).Sound := by
  and_intros <;> decide

theorem witness_OnlyRefreshWritesDisplay :
    (scan State.reset 5 224).Unmarked ∧
    displayAfter (exec .incMinute (scan State.reset 5 224)) = some (0, 0, 5, 224, 0) ∧
    displayAfter (exec (.step 0b00000) (phase (scan State.reset 5 224) 4)) = some (0, 0, 5, 224, 5) ∧
    (scan State.reset 0 0).Sound ∧ (scan State.reset 5 0).Sound := by and_intros <;> decide

theorem witness_TickAccumulator :
    (scan (clk true 0 0 0) 0 224).Unmarked ∧
    (scan State.reset 0 223).Sound ∧ (scan State.reset 0 223).regs.TICK.toNat + 1 ≠ State.reset.params.ticksPerSecond ∧
    (scan State.reset 0 224).Sound ∧ (scan State.reset 0 224).regs.TICK.toNat + 1 = State.reset.params.ticksPerSecond ∧
    timeAfter (exec .decHour (scan (clk true 0 0 0) 0 224)) = some (true, 23, 0, 0) ∧
    224 < State.reset.params.ticksPerSecond := by and_intros <;> decide

theorem witness_TickFitsItsWidth :
    224 < State.reset.params.ticksPerSecond ∧ 1 < State.reset.width ∧ 1 < (perSecond State.reset 3).width ∧
    0 < (perSecond State.reset 1).params.ticksPerSecond := by decide

theorem witness_MinuteAndHourDownPolls :
    (phase State.reset 1).Sound ∧ (phase State.reset 1).regs.PHASE.toNat = 1 ∧ (0b11101 : Lines).getLsbD 1 = false ∧
    (phase State.reset 2).Sound ∧ (phase State.reset 2).regs.PHASE.toNat = 2 ∧ (0b11011 : Lines).getLsbD 2 = false ∧
    (phase State.reset 4).Sound ∧ (phase State.reset 4).regs.PHASE.toNat = 4 ∧ (0b01111 : Lines).getLsbD 4 = false ∧
    (phase badHour 1).Unmarked ∧ ¬ (phase badHour 1).regs.Valid badHour.params := by and_intros <;> decide

theorem witness_FormatAndHourUpPolls :
    (phase State.reset 0).Sound ∧ (phase State.reset 0).regs.PHASE.toNat = 0 ∧ (0b11110 : Lines).getLsbD 0 = false ∧
    (phase State.reset 3).Sound ∧ (phase State.reset 3).regs.PHASE.toNat = 3 ∧ (0b10111 : Lines).getLsbD 3 = false := by
  and_intros <;> decide

theorem witness_IdlePollMovesPhaseOnly :
    (phase State.reset 0).Sound ∧ (phase State.reset 4).Sound ∧ (phase State.reset 4).regs.PHASE.toNat ≤ 4 ∧
    (0b11111 : Lines).getLsbD (phase State.reset 4).regs.PHASE.toNat = true := by and_intros <;> decide

theorem witness_PhaseFiveRefreshes : (phase State.reset 5).Sound ∧ (phase State.reset 5).regs.PHASE.toNat = 5 := by
  decide

theorem witness_StepReadsOneLine :
    (phase State.reset 4).Sound ∧
    ((phase State.reset 4).regs.PHASE.toNat ≤ 4 → (0b10000 : Lines).getLsbD 4 = (0b11111 : Lines).getLsbD 4) ∧
    (phase State.reset 5).Sound ∧
    ((phase State.reset 5).regs.PHASE.toNat ≤ 4 → (0b00000 : Lines).getLsbD 5 = (0b11111 : Lines).getLsbD 5) := by
  and_intros <;> decide

theorem witness_IterationIsActionsThenRefresh :
    (scan (clk true 23 59 59) 5 224).Sound ∧ (scan (clk true 23 59 59) 5 224).regs.PHASE = 0 := by decide

theorem witness_DarkUntilSixthStep :
    ([] : List Lines).length ≤ 5 ∧ ([0, 0, 0, 0, 0] : List Lines).length ≤ 5 ∧
    ([0, 0, 0, 0, 0, 0] : List Lines).length = 6 := by decide

theorem witness_SharedPinsFireTogether :
    (scan (clk true 23 59 59) 5 224).Sound ∧ (scan (clk true 23 59 59) 5 224).env.pending = [] ∧
    (scan (clk true 23 59 59) 5 224).regs.PHASE = 0 := by decide

theorem witness_OnlyStepMovesPhase :
    (phase State.reset 5).Unmarked ∧
    displayAfter (exec (.step 0b11111) (phase State.reset 4)) = some (0, 0, 0, 0, 5) ∧
    displayAfter (exec (.step 0b11111) (phase State.reset 5)) = some (0x3F, 1, 1, 1, 0) ∧
    displayAfter (exec .incHour (phase State.reset 5)) = some (0, 0, 0, 0, 5) := by and_intros <;> decide

theorem witness_InvalidStateFaults :
    badHour.Unmarked ∧ ¬ badHour.regs.Valid badHour.params ∧ checksState (.step 0) = true ∧
    checksState .refresh = true ∧ ¬ (scan State.reset 6 0).regs.Valid State.reset.params ∧
    ¬ (scan State.reset 0 225).regs.Valid State.reset.params := by and_intros <;> decide

theorem witness_MarkedStateIsNotEnabled :
    faulted.FAULT ≠ ⟨false⟩ ∧ checksState .toggleFormat = true := by decide

theorem witness_UnmatchedWordOnlyMarks :
    (State.reset.withFetchWord 24 0x100001).Unmarked ∧
    (State.reset.withFetchWord 24 0x100001).env.pending = .opWord 0x100001 :: [] ∧
    (∀ row ∈ opRows, row.holds 0x100001 = false) ∧ (∀ row ∈ opRows, row.holds 0x900020 = false) := by decide

theorem witness_OperationsKeepValid : (clk true 23 59 59).Sound ∧ (clk false 1 0 0).Sound := by and_intros <;> decide

theorem witness_StepKeepsInvariant :
    (State.reset.withFetchWord 24 0x700000).Inv ∧
    displayAfter (step (State.reset.withFetchWord 24 0x700000)) = some (0x3F, 1, 1, 1, 0) := by decide

theorem witness_ReservedWordOnlyMarks : badHour.Unmarked ∧ State.reset.Unmarked := by decide

theorem witness_OnlyBadSetStops :
    (State.reset.withFetchWord 24 0x090000).Inv ∧
    invalidOp (step (State.reset.withFetchWord 24 0x090000)) = some (.set 2 4 0 0 0 0) := by decide

theorem witness_MarksAreSticky :
    marksAfter (step ((State.reset.markRefused .nonzeroReservedField).withFetchWord 24 0x600000)) =
      some (⟨false, true⟩, 1, 0) ∧
    marksAfter (step ((State.reset.markRefused .reservedOpcode).withFetchWord 24 0xA00000)) =
      some (⟨true, false⟩, 0, 0) := by decide

theorem witness_ParametersNeverWritten :
    (timeAfter (step (State.reset.withFetchWord 24 0x600000))) = some (true, 0, 0, 1) := by decide

theorem witness_DelaysHaveNoEffect :
    (State.reset.withFetchWord 24 0x700000).Unmarked ∧
    (displayAfter (step (State.reset.withFetchWord 24 0x700000))) = some (0x3F, 1, 1, 1, 0) := by decide

end Sys2Proof.Machine.Tests
end

section
/-! PROOFS. The statements about BCD_time_keeper of the family 41_time_model.md: what TOGGLE_FORMAT writes, and which
registers each of the seven operations leaves alone. -/

namespace Sys2Proof.Machine

variable {W : Nat}

/-- The hour in the other format, as R103 tabulates it. -/
theorem convertHour_eq (fmt24 : Bool) (h : Nat) :
    convertHour fmt24 h =
      if fmt24 = true then (if h = 0 then 12 else if 13 ≤ h then h - 12 else h)
      else (if h = 12 then 0 else h % 12 + 12) := rfl

/-- TOGGLE_FORMAT writes the two hour digits and the flag: every other register is the one of before (R103). -/
theorem toggleFormat_eq (r : Regs W) :
    toggleFormat r = { r with HT := BitVec.ofNat 2 (convertHour r.FMT24 r.hour / 10),
                              HU := BitVec.ofNat 4 (convertHour r.FMT24 r.hour % 10),
                              FMT24 := !r.FMT24 } := rfl

/-- Settles O13: the word is decoded by evaluation, the Valid branch is the effect `toggleFormat_eq` with the conversion
table `convertHour_eq`, and the other branch is `require_valid()`. -/
theorem toggleFormatConverts : Obligations.ToggleFormatConverts := by
  unfold Obligations.ToggleFormatConverts
  refine ⟨by decide, fun s ⟨hfault, _⟩ => ⟨fun hv => ?valid, fun hv => ⟨_, exec_of_invalid rfl hfault hv⟩⟩⟩
  case valid =>
    have hexec : exec .toggleFormat s = .next (s.withRegs (toggleFormat s.regs)) :=
      exec_of_valid (f := fun _ => toggleFormat) rfl hfault hv
    rw [hexec, toggleFormat_eq, convertHour_eq]
    rfl

/-- The registers `q` that operation `i` of BCD_time_keeper may leave where it found `r`: R101, register by register. -/
structure Regs.TimeFootprint (i : Instr) (r q : Regs W) : Prop where
  beside : r.SameBesideTime q
  flag : i ≠ .toggleFormat → q.FMT24 = r.FMT24
  hours : i = .incMinute ∨ i = .decMinute → q.HT = r.HT ∧ q.HU = r.HU
  minutes : i = .toggleFormat ∨ i = .incHour ∨ i = .decHour → q.MT = r.MT ∧ q.MU = r.MU
  seconds : i = .toggleFormat ∨ i = .incMinute ∨ i = .decMinute ∨ i = .incHour ∨ i = .decHour →
    q.ST = r.ST ∧ q.SU = r.SU

theorem writeDigits_timeFootprint (r : Regs W) (ht : BitVec 2) (hu : BitVec 4) (mt : BitVec 3) (mu : BitVec 4)
    (st : BitVec 3) (su : BitVec 4) :
    r.TimeFootprint (.set ht hu mt mu st su) (r.writeDigits ht hu mt mu st su) where
  beside := ⟨rfl, rfl, rfl, rfl, rfl⟩
  flag _ := rfl
  hours := by simp
  minutes := by simp
  seconds := by simp

theorem toggleFormat_timeFootprint (r : Regs W) : r.TimeFootprint .toggleFormat (toggleFormat r) where
  beside := toggleFormat_beside r
  flag h := absurd rfl h
  hours := by simp
  minutes _ := ⟨rfl, rfl⟩
  seconds _ := ⟨rfl, rfl⟩

theorem incMinute_timeFootprint (r : Regs W) : r.TimeFootprint .incMinute (incMinute r) := by
  obtain ⟨hHT, hHU, hST, hSU, hF⟩ := incMinute_keeps r
  exact ⟨incMinute_beside r, fun _ => hF, fun _ => ⟨hHT, hHU⟩, by simp, fun _ => ⟨hST, hSU⟩⟩

theorem decMinute_timeFootprint (r : Regs W) : r.TimeFootprint .decMinute (decMinute r) := by
  obtain ⟨hHT, hHU, hST, hSU, hF⟩ := decMinute_keeps r
  exact ⟨decMinute_beside r, fun _ => hF, fun _ => ⟨hHT, hHU⟩, by simp, fun _ => ⟨hST, hSU⟩⟩

theorem hourInc_timeFootprint (r : Regs W) : r.TimeFootprint .incHour (hourInc r) := by
  obtain ⟨hMT, hMU, hST, hSU, hF⟩ := hourInc_keeps r
  exact ⟨hourInc_beside r, fun _ => hF, by simp, fun _ => ⟨hMT, hMU⟩, fun _ => ⟨hST, hSU⟩⟩

theorem decHour_timeFootprint (r : Regs W) : r.TimeFootprint .decHour (decHour r) := by
  obtain ⟨hMT, hMU, hST, hSU, hF⟩ := decHour_keeps r
  exact ⟨decHour_beside r, fun _ => hF, by simp, fun _ => ⟨hMT, hMU⟩, fun _ => ⟨hST, hSU⟩⟩

theorem advanceSecond_timeFootprint (r : Regs W) : r.TimeFootprint .advanceSecond (advanceSecond r) where
  beside := advanceSecond_beside r
  flag _ := advanceSecond_FMT24 r
  hours := by simp
  minutes := by simp
  seconds := by simp

/-- Each of the six operations of BCD_time_keeper that check their state has a register effect within its footprint. -/
theorem effect_timeFootprint {i : Instr}
    (hi : i = .toggleFormat ∨ i = .incMinute ∨ i = .decMinute ∨ i = .incHour ∨ i = .decHour ∨ i = .advanceSecond) :
    ∃ f : Params → Regs W → Regs W, effect i = some f ∧ ∀ p r, Regs.TimeFootprint i r (f p r) := by
  rcases hi with rfl | rfl | rfl | rfl | rfl | rfl
  · exact ⟨_, rfl, fun _ => toggleFormat_timeFootprint⟩
  · exact ⟨_, rfl, fun _ => incMinute_timeFootprint⟩
  · exact ⟨_, rfl, fun _ => decMinute_timeFootprint⟩
  · exact ⟨_, rfl, fun _ => hourInc_timeFootprint⟩
  · exact ⟨_, rfl, fun _ => decHour_timeFootprint⟩
  · exact ⟨_, rfl, fun _ => advanceSecond_timeFootprint⟩

/-- What an operation of BCD_time_keeper can do where FAULT is empty: raise INVALID_STATE, or leave registers within its
footprint, which are the same registers in every environment. -/
theorem timeKeeper_cases {s : State} {i : Instr} (hfault : s.FAULT = ⟨false⟩)
    (hi : (∃ ht hu mt mu st su, i = .set ht hu mt mu st su) ∨ i = .toggleFormat ∨ i = .incMinute ∨ i = .decMinute ∨
      i = .incHour ∨ i = .decHour ∨ i = .advanceSecond) :
    (∃ m, exec i s = .fault (.invalidState i m)) ∨
    ∃ q : Regs s.width, s.regs.TimeFootprint i q ∧
      ∀ e : Env, exec i { s with env := e } = .next { s.withRegs q with env := e } := by
  obtain ⟨ht, hu, mt, mu, st, su, rfl⟩ | hi := hi
  · by_cases hv : (s.regs.writeDigits ht hu mt mu st su).Valid s.params
    · exact .inr ⟨_, writeDigits_timeFootprint s.regs ht hu mt mu st su,
        fun e => exec_set_of_valid (s := { s with env := e }) hfault hv⟩
    · exact .inl ⟨_, exec_set_of_invalid hfault hv⟩
  · obtain ⟨f, hf, hfoot⟩ := effect_timeFootprint (W := s.width) hi
    by_cases hv : s.regs.Valid s.params
    · exact .inr ⟨_, hfoot s.params s.regs, fun e => exec_of_valid (s := { s with env := e }) hf hfault hv⟩
    · exact .inl ⟨_, exec_of_invalid hf hfault hv⟩

/-- Settles O22, from the two cases of `timeKeeper_cases`: the footprint names each register's clause, and the state
differs in nothing but its registers. -/
theorem timeKeeperFootprint : Obligations.TimeKeeperFootprint := by
  unfold Obligations.TimeKeeperFootprint
  intro s i ⟨hfault, _⟩ hi
  obtain hinvalid | ⟨q, hq, hexec⟩ := timeKeeper_cases hfault hi
  · exact .inl hinvalid
  · exact .inr ⟨s.withRegs q, hexec s.env, rfl, rfl, rfl, rfl, hq.beside.CUR, congrArg BitVec.toNat hq.beside.TICK,
      hq.beside.PHASE, hq.beside.SEG, hq.beside.DSEL, hq.flag, hq.hours, hq.minutes, hq.seconds, hexec⟩

end Sys2Proof.Machine
end

section
/-! PROOFS. The statement about seven_segment_decoder of the family 42_segment_decoder.md: REFRESH drives the decoder's
pattern for the digit at the cursor, whichever slot that is. -/

namespace Sys2Proof.Machine

variable {W : Nat}

/-- The digit of a slot keeps the value of the slot's register, narrow or not (R25). -/
theorem Regs.slotDigit_toNat (r : Regs W) {k : BitVec 3} (hk : k.toNat ≤ 5) :
    (r.slotDigit k).toNat =
      [r.SU.toNat, r.ST.toNat, r.MU.toNat, r.MT.toNat, r.HU.toNat, r.HT.toNat].getD k.toNat 0 := by
  unfold Regs.slotDigit
  match k.toNat, hk with
  | 0, _ => rfl
  | 1, _ => exact BitVec.toNat_setWidth_of_le (by decide)
  | 2, _ => rfl
  | 3, _ => exact BitVec.toNat_setWidth_of_le (by decide)
  | 4, _ => rfl
  | 5, _ => exact BitVec.toNat_setWidth_of_le (by decide)

/-- The decoder reads the segment table and no other parameter (R150). -/
theorem segmentPattern_congr {p q : Params} (h : q.segTable = p.segTable) (d : Digit) :
    segmentPattern q d = segmentPattern p d := by
  unfold segmentPattern
  rw [h]

/-- On a sound state REFRESH completes and drives the decoder's pattern for the digit in the slot at the cursor (R161). -/
theorem exec_refresh_drives {s : State} {d : Digit} (hs : s.Sound)
    (hd : d.toNat = [s.regs.SU.toNat, s.regs.ST.toNat, s.regs.MU.toNat, s.regs.MT.toNat, s.regs.HU.toNat,
      s.regs.HT.toNat].getD s.regs.CUR.toNat 0) :
    ∃ t, exec .refresh s = .next t ∧ t.regs.SEG = segmentPattern s.params d := by
  obtain ⟨_, _, hcur, _⟩ := hs.2
  have hdigit : s.regs.slotDigit s.regs.CUR = d := BitVec.eq_of_toNat_eq ((s.regs.slotDigit_toNat hcur).trans hd.symm)
  obtain ⟨_, _, hseg, _⟩ := refresh_display s.params s.regs
  exact ⟨_, exec_of_sound rfl hs, hdigit ▸ hseg⟩

/-- Settles O26: each REFRESH drives the decoder's pattern for the one digit (`exec_refresh_drives`), and the decoder
depends on the digit and the table alone (`segmentPattern_congr`), not on the slot. -/
theorem oneDecoderForAllSlots : Obligations.OneDecoderForAllSlots := by
  unfold Obligations.OneDecoderForAllSlots
  intro s s' d hs hs' htable hd hd'
  obtain ⟨t, ht, hseg⟩ := exec_refresh_drives hs hd
  obtain ⟨t', ht', hseg'⟩ := exec_refresh_drives hs' hd'
  exact ⟨t, t', ht, ht', hseg'.trans ((segmentPattern_congr htable d).trans hseg.symm), hseg⟩

end Sys2Proof.Machine
end

section
/-! PROOFS. The statements about multiplexed_display_driver and tick_accumulator_to_second_advance of the family
43_display_multiplexer.md: what REFRESH does to the cursor, the select lines and the tick counter, and that an operation
that runs no REFRESH keeps the four display registers and never reads TICK. -/

namespace Sys2Proof.Machine

variable {W : Nat}

/-! ### REFRESH -/

/-- Bit `k` of `onehot6(c)` is set exactly at the slot `c` (R8). -/
theorem onehot6_getLsbD {c : BitVec 3} (hc : c.toNat ≤ 5) (k : Nat) :
    (onehot6 c).getLsbD k = decide (k = c.toNat) := by
  have hlt : c.toNat < 6 := by omega
  rw [onehot6, ← BitVec.twoPow_eq, BitVec.getLsbD_twoPow, decide_eq_true hlt, Bool.true_and]
  exact decide_eq_decide.mpr eq_comm

/-- A REFRESH that does not reach N stores the count and leaves the time alone (R166). -/
theorem refresh_of_count {p : Params} {r : Regs W} (h : r.TICK.toNat + 1 ≠ p.ticksPerSecond) :
    refresh p r = { showSlot p r with TICK := r.TICK + 1 } := if_neg h

/-- The REFRESH that reaches N runs ADVANCE_SECOND and restarts the count (R166). -/
theorem refresh_of_last {p : Params} {r : Regs W} (h : r.TICK.toNat + 1 = p.ticksPerSecond) :
    refresh p r = { advanceSecond (showSlot p r) with TICK := 0 } := if_pos h

/-- ADVANCE_SECOND gives the same time whether a slot was shown before it or not: it reads the time only. -/
theorem advanceSecond_showSlot_timeWord {p : Params} {r : Regs W} (hv : r.Valid p) :
    (advanceSecond (showSlot p r)).timeWord = (advanceSecond r).timeWord := by
  rw [advanceSecond_eq hv, advanceSecond_eq (valid_showSlot hv)]
  rfl

/-! ### Registers at another count -/

/-- The same registers at another count of the tick accumulator. -/
def Regs.atTick (r : Regs W) (v : BitVec W) : Regs W := { r with TICK := v }

theorem Regs.valid_atTick {p : Params} {r : Regs W} (hv : r.Valid p) {v : BitVec W} (h : v.toNat < p.ticksPerSecond) :
    (r.atTick v).Valid p := by
  obtain ⟨hdigits, hhour, hcur, -, hphase⟩ := hv
  exact ⟨hdigits, hhour, hcur, h, hphase⟩

theorem toggleFormat_atTick (r : Regs W) (v : BitVec W) : toggleFormat (r.atTick v) = (toggleFormat r).atTick v := rfl

section AtTick

variable {p : Params} {r : Regs W} (hv : r.Valid p) (v : BitVec W)

include hv

theorem incMinute_atTick : incMinute (r.atTick v) = (incMinute r).atTick v := by
  obtain ⟨⟨-, -, hMT, hMU, -⟩, -⟩ := hv
  rw [incMinute_eq (r := r.atTick v) hMT hMU, incMinute_eq hMT hMU]
  rfl

theorem decMinute_atTick : decMinute (r.atTick v) = (decMinute r).atTick v := by
  obtain ⟨⟨-, -, hMT, hMU, -⟩, -⟩ := hv
  rw [decMinute_eq (r := r.atTick v) hMT hMU, decMinute_eq hMT hMU]
  rfl

theorem hourInc_atTick : hourInc (r.atTick v) = (hourInc r).atTick v := by
  obtain ⟨⟨hHT, hHU, -⟩, hhour, -⟩ := hv
  rw [hourInc_eq (r := r.atTick v) hHT hHU hhour, hourInc_eq hHT hHU hhour]
  rfl

theorem decHour_atTick : decHour (r.atTick v) = (decHour r).atTick v := by
  obtain ⟨⟨hHT, hHU, -⟩, hhour, -⟩ := hv
  rw [decHour_eq (r := r.atTick v) hHT hHU hhour, decHour_eq hHT hHU hhour]
  rfl

theorem hourUp_atTick : hourUp p (r.atTick v) = (hourUp p r).atTick v := by
  obtain ⟨⟨hHT, hHU, -⟩, hhour, -⟩ := hv
  rw [hourUp_eq (r := r.atTick v) hHT hHU hhour, hourUp_eq hHT hHU hhour]
  rfl

theorem advanceSecond_atTick {v : BitVec W} (h : v.toNat < p.ticksPerSecond) :
    advanceSecond (r.atTick v) = (advanceSecond r).atTick v := by
  rw [advanceSecond_eq (Regs.valid_atTick hv h), advanceSecond_eq hv]
  rfl

/-- No action reads or writes TICK. -/
theorem action_atTick (k : Nat) : action p k (r.atTick v) = (action p k r).atTick v := by
  unfold action
  split
  · exact toggleFormat_atTick r v
  · exact incMinute_atTick hv v
  · exact decMinute_atTick hv v
  · exact hourUp_atTick hv v
  · exact decHour_atTick hv v

theorem poll_atTick (k : Nat) (l : Bool) : poll p k l (r.atTick v) = (poll p k l r).atTick v := by
  unfold poll
  split
  · exact action_atTick hv v k
  · rfl

/-- STEP in a poll phase neither reads nor writes TICK. -/
theorem sequencerStep_atTick (b : Lines) (h : r.PHASE.toNat ≤ 4) :
    sequencerStep b p (r.atTick v) = (sequencerStep b p r).atTick v := by
  rw [sequencerStep_poll (r := r.atTick v) b h, sequencerStep_poll b h]
  exact congrArg (Regs.atPhase · _) (poll_atTick hv v _ _)

end AtTick

/-! ### The frame of an operation that runs no REFRESH -/

/-- What operation `i` leaves where it found `r`, if it runs no REFRESH: the four registers that only REFRESH writes (R160,
R166), and the seconds unless it is ADVANCE_SECOND or SET. -/
structure Regs.DisplayFrame (i : Instr) (r q : Regs W) : Prop where
  CUR : q.CUR = r.CUR
  TICK : q.TICK = r.TICK
  SEG : q.SEG = r.SEG
  DSEL : q.DSEL = r.DSEL
  seconds : i ≠ .advanceSecond → (∀ ht hu mt mu st su, i ≠ .set ht hu mt mu st su) → q.ST = r.ST ∧ q.SU = r.SU

theorem Regs.DisplayFrame.refl (i : Instr) (r : Regs W) : r.DisplayFrame i r :=
  ⟨rfl, rfl, rfl, rfl, fun _ _ => ⟨rfl, rfl⟩⟩

theorem Regs.SameBesideTime.displayFrame {i : Instr} {r q : Regs W} (h : r.SameBesideTime q) (hST : q.ST = r.ST)
    (hSU : q.SU = r.SU) : r.DisplayFrame i q := ⟨h.CUR, h.TICK, h.SEG, h.DSEL, fun _ _ => ⟨hST, hSU⟩⟩

/-- No action writes the seconds. -/
theorem action_seconds (p : Params) (k : Nat) (r : Regs W) : (action p k r).ST = r.ST ∧ (action p k r).SU = r.SU := by
  unfold action
  split
  · exact ⟨rfl, rfl⟩
  · obtain ⟨-, -, hST, hSU, -⟩ := incMinute_keeps r
    exact ⟨hST, hSU⟩
  · obtain ⟨-, -, hST, hSU, -⟩ := decMinute_keeps r
    exact ⟨hST, hSU⟩
  · obtain ⟨-, -, hST, hSU, -⟩ := hourUp_keeps p r
    exact ⟨hST, hSU⟩
  · obtain ⟨-, -, hST, hSU, -⟩ := decHour_keeps r
    exact ⟨hST, hSU⟩

theorem action_displayFrame (i : Instr) (p : Params) (k : Nat) (r : Regs W) : r.DisplayFrame i (action p k r) :=
  (action_beside p k r).displayFrame (action_seconds p k r).1 (action_seconds p k r).2

theorem poll_displayFrame (i : Instr) (p : Params) (k : Nat) (l : Bool) (r : Regs W) :
    r.DisplayFrame i (poll p k l r) := by
  unfold poll
  split
  · exact action_displayFrame i p k r
  · exact .refl i r

theorem sequencerStep_displayFrame (i : Instr) {p : Params} {r : Regs W} (b : Lines) (h : r.PHASE.toNat ≤ 4) :
    r.DisplayFrame i (sequencerStep b p r) := by
  obtain ⟨hCUR, hTICK, hSEG, hDSEL, hsec⟩ := poll_displayFrame i p r.PHASE.toNat (b.getLsbD r.PHASE.toNat) r
  rw [sequencerStep_poll b h]
  exact ⟨hCUR, hTICK, hSEG, hDSEL, hsec⟩

/-- An operation that runs no REFRESH keeps its frame and does the same at every legal count of TICK. Five of them are the
poll actions of R190. -/
theorem effect_offRefresh {i : Instr} {f : Params → Regs W → Regs W} (he : effect i = some f) {p : Params} {r : Regs W}
    (hi : i ≠ .refresh) (hstep : ∀ b, i = .step b → r.PHASE ≠ 5) (hv : r.Valid p) :
    r.DisplayFrame i (f p r) ∧
      ∀ v : BitVec W, v.toNat < p.ticksPerSecond → f p (r.atTick v) = (f p r).atTick v := by
  cases i <;> simp only [effect, Option.some.injEq, reduceCtorEq] at he <;> subst he
  case toggleFormat => exact ⟨action_displayFrame _ p 0 r, fun v _ => toggleFormat_atTick r v⟩
  case incMinute => exact ⟨action_displayFrame _ p 1 r, fun v _ => incMinute_atTick hv v⟩
  case decMinute => exact ⟨action_displayFrame _ p 2 r, fun v _ => decMinute_atTick hv v⟩
  case incHour =>
    obtain ⟨-, -, hST, hSU, -⟩ := hourInc_keeps r
    exact ⟨(hourInc_beside r).displayFrame hST hSU, fun v _ => hourInc_atTick hv v⟩
  case decHour => exact ⟨action_displayFrame _ p 4 r, fun v _ => decHour_atTick hv v⟩
  case advanceSecond =>
    obtain ⟨hCUR, hTICK, -, hSEG, hDSEL⟩ := advanceSecond_beside r
    exact ⟨⟨hCUR, hTICK, hSEG, hDSEL, fun h => absurd rfl h⟩, fun _ => advanceSecond_atTick hv⟩
  case refresh => exact absurd rfl hi
  case hourUpAction => exact ⟨action_displayFrame _ p 3 r, fun v _ => hourUp_atTick hv v⟩
  case step b =>
    have hpoll : r.PHASE.toNat ≤ 4 := by
      obtain ⟨-, -, -, -, hphase⟩ := hv
      have hne := hstep b rfl
      bv_omega
    exact ⟨sequencerStep_displayFrame _ b hpoll, fun v _ => sequencerStep_atTick hv v b hpoll⟩

/-- The next state of an operation that runs no REFRESH differs from the state before in registers `q` within the frame and
outside the registers in the mark REFUSED and the environment alone; at any other legal count it is the same state but for
that count. -/
theorem exec_offRefresh {s t : State} {i : Instr} (h : exec i s = .next t) (hi : i ≠ .refresh)
    (hstep : ∀ b, i = .step b → s.regs.PHASE ≠ 5) :
    ∃ (q : Regs s.width) (R : RefusedSet) (e : Env), t = { s with regs := q, REFUSED := R, env := e } ∧
      s.regs.DisplayFrame i q ∧
      ∀ v : BitVec s.width, v.toNat < s.params.ticksPerSecond →
        exec i (s.withRegs (s.regs.atTick v)) = .next { s with regs := q.atTick v, REFUSED := R, env := e } := by
  obtain ⟨f, he, ⟨hfault, hv⟩, rfl⟩ | ⟨ht, hu, mt, mu, st, su, rfl, hfault, hv, rfl⟩ | ⟨d, rfl, rfl⟩ | ⟨hres, rfl⟩ :=
    exec_next h
  · obtain ⟨hframe, htick⟩ := effect_offRefresh he hi hstep hv
    refine ⟨_, _, _, rfl, hframe, fun v hlt => ?_⟩
    rw [exec_withRegs he hfault (Regs.valid_atTick hv hlt), htick v hlt]
    rfl
  · exact ⟨_, _, _, rfl, ⟨rfl, rfl, rfl, rfl, fun _ hset => absurd rfl (hset ht hu mt mu st su)⟩, fun v hlt =>
      exec_set_of_valid (s := s.withRegs (s.regs.atTick v)) hfault (Regs.valid_atTick hv hlt)⟩
  · exact ⟨_, _, _, rfl, .refl _ s.regs, fun _ _ => rfl⟩
  · obtain ⟨w, rfl⟩ | ⟨w, rfl⟩ := hres <;>
      exact ⟨_, _, _, rfl, .refl _ s.regs, fun _ _ => rfl⟩

/-! ### The two statements -/

/-- Settles O30: the frame of `exec_offRefresh` for every other operation; for REFRESH the display registers of
`refresh_display`, with the select bit of the old cursor. -/
theorem onlyRefreshWritesDisplay : Obligations.OnlyRefreshWritesDisplay := by
  unfold Obligations.OnlyRefreshWritesDisplay
  refine ⟨fun s t i _ h hi hstep => ?others, fun s hs => ?refresh⟩
  case others =>
    obtain ⟨q, R, e, rfl, hframe, -⟩ := exec_offRefresh h hi hstep
    exact ⟨hframe.CUR, congrArg BitVec.toNat hframe.TICK, hframe.SEG, hframe.DSEL⟩
  case refresh =>
    obtain ⟨-, -, hcur, -⟩ := hs.2
    obtain ⟨hCUR, hDSEL, -⟩ := refresh_display s.params s.regs
    refine ⟨_, exec_of_sound rfl hs, ?_, fun k _ => ?_⟩
    · rw [State.withRegs_regs, hCUR, next6_toNat]
    · rw [State.withRegs_regs, hDSEL, onehot6_getLsbD hcur]

/-- Settles O31: the two cases of the accumulator are `refresh_of_count` and `refresh_of_last`; every other operation is
`exec_offRefresh`. -/
theorem tickAccumulator : Obligations.TickAccumulator := by
  unfold Obligations.TickAccumulator
  refine ⟨fun s hs => ⟨fun hcount => ?count, fun hlast => ?last⟩, fun s t i v _ h hi hstep => ?others, rfl⟩
  case count =>
    have hfits : s.regs.TICK.toNat + 1 < 2 ^ s.width := by
      obtain ⟨-, -, -, hlt, -⟩ := hs.2
      have := s.width_fits
      omega
    refine ⟨_, exec_of_sound rfl hs, ?_⟩
    rw [State.withRegs_regs, refresh_of_count hcount]
    exact ⟨tick_succ hfits, rfl, rfl⟩
  case last =>
    refine ⟨_, _, exec_of_sound rfl hs, exec_of_sound rfl hs, ?_⟩
    rw [State.withRegs_regs, State.withRegs_regs, refresh_of_last hlast]
    exact ⟨rfl, advanceSecond_showSlot_timeWord hs.2,
      (advanceSecond_FMT24 _).trans (advanceSecond_FMT24 s.regs).symm⟩
  case others =>
    obtain ⟨q, R, e, rfl, hframe, htick⟩ := exec_offRefresh h hi hstep
    refine ⟨congrArg BitVec.toNat hframe.TICK, fun hv => htick (BitVec.ofNat _ v) ?_, hframe.seconds⟩
    rw [BitVec.toNat_ofNat]
    exact (Nat.mod_le _ _).trans_lt hv

end Sys2Proof.Machine
end

section
/-! PROOFS. The statements of 30_encoding.md about the words: encoding and decoding undo each other, the rows of the opcode
map are disjoint, and the packed TimeValue is SET's payload. A word is its opcode nibble followed by its payload. -/

namespace Sys2Proof

/-! ### A word as opcode and payload -/

/-- The value of two fields side by side: the higher one counts in units of the lower one's range. -/
theorem toNat_append_eq_add {m n : Nat} (x : BitVec m) (y : BitVec n) :
    (x ++ y).toNat = x.toNat * 2 ^ n + y.toNat := by
  rw [BitVec.toNat_append, ← Nat.shiftLeft_add_eq_or_of_lt y.isLt, Nat.shiftLeft_eq]

@[simp] theorem opField_append (op : BitVec 4) (p : BitVec 20) : opField (op ++ p) = op :=
  BitVec.extractLsb'_append_eq_left

@[simp] theorem payload_append (op : BitVec 4) (p : BitVec 20) : payload (op ++ p) = p :=
  BitVec.extractLsb'_append_eq_right

theorem opField_append_payload (w : OpWord) : opField w ++ payload w = w :=
  (BitVec.extractLsb'_append_extractLsb'_eq_extractLsb' (x := w) (start₁ := 0) (len₁ := 20) (len₂ := 4) rfl).trans
    BitVec.extractLsb'_eq_self

theorem opWord_eq_iff {w v : OpWord} : w = v ↔ opField w = opField v ∧ payload w = payload v := by
  refine ⟨fun h => h ▸ ⟨rfl, rfl⟩, fun ⟨hop, hpay⟩ => ?_⟩
  rw [← opField_append_payload w, hop, hpay, opField_append_payload]

/-- A row of the opcode map asks something of the opcode and something of the payload. -/
theorem OpRow.holds_iff {r : OpRow} {w : OpWord} :
    r.holds w = true ↔ opField w &&& opField r.mask = opField r.pattern ∧
      payload w &&& payload r.mask = payload r.pattern := by
  rw [OpRow.holds, beq_iff_eq, opWord_eq_iff]
  exact iff_of_eq (congrArg₂ (fun a b => a = opField r.pattern ∧ b = payload r.pattern)
    BitVec.extractLsb'_and BitVec.extractLsb'_and)

/-! ### The words of SET and STEP -/

/-- SET's word is the opcode 0 and the six fields, high to low (R72). -/
theorem encode_set (ht : BitVec 2) (hu : BitVec 4) (mt : BitVec 3) (mu : BitVec 4) (st : BitVec 3) (su : BitVec 4) :
    encode (.set ht hu mt mu st su) = .opWord (0x0#4 ++ (ht ++ hu ++ mt ++ mu ++ st ++ su)) := by
  simp only [encode, Issue.opWord.injEq, ← BitVec.toNat_inj, toNat_append_eq_add]
  bv_omega

/-- The payload of SET holds its fields at bits 19:18, 17:14, 13:11, 10:7, 6:4 and 3:0 (R24). -/
theorem decodeS_fields (ht : BitVec 2) (hu : BitVec 4) (mt : BitVec 3) (mu : BitVec 4) (st : BitVec 3) (su : BitVec 4) :
    decodeS (ht ++ hu ++ mt ++ mu ++ st ++ su) = .set ht hu mt mu st su := by
  simp only [decodeS, Instr.set.injEq, ← BitVec.toNat_inj, BitVec.extractLsb'_toNat, toNat_append_eq_add,
    Nat.shiftRight_eq_div_pow]
  bv_omega

/-- Every payload is the payload of the SET it decodes to. -/
theorem encode_decodeS (p : BitVec 20) : encode (decodeS p) = .opWord (0x0#4 ++ p) := by
  simp only [decodeS, encode, Issue.opWord.injEq, ← BitVec.toNat_inj, BitVec.extractLsb'_toNat, toNat_append_eq_add,
    Nat.shiftRight_eq_div_pow]
  bv_omega

/-- STEP's word is the opcode 9, fifteen zeros and the snapshot of the lines (R74). -/
theorem encode_step (b : Lines) : encode (.step b) = .opWord (0x9#4 ++ (0#15 ++ b)) :=
  congrArg Issue.opWord BitVec.append_assoc

theorem decodeB_lines (b : Lines) : decodeB (0#15 ++ b) = .ok (.step b) := by
  rw [decodeB, BitVec.extractLsb'_append_eq_left, BitVec.extractLsb'_append_eq_right, if_pos rfl]

/-- A payload with zeros in bits 19:5 is STEP's for the lines in bits 4:0. -/
theorem lines_of_payload {p : BitVec 20} (h : p.extractLsb' 5 15 = 0#15) : 0#15 ++ p.extractLsb' 0 5 = p := by
  rw [← h]
  exact (BitVec.extractLsb'_append_extractLsb'_eq_extractLsb' (x := p) (start₁ := 0) (len₁ := 5) (len₂ := 15) rfl).trans
    BitVec.extractLsb'_eq_self

/-! ### What the decoder answers, by opcode -/

theorem decodeOp_set {w : OpWord} (h : opField w = 0x0#4) : decodeOp w = .ok (decodeS (payload w)) := by
  simp [decodeOp, h]

theorem decodeOp_step {w : OpWord} (h : opField w = 0x9#4) : decodeOp w = decodeB (payload w) := by
  simp [decodeOp, h]

theorem decodeOp_reservedAB {w : OpWord} (h : (Instr.reservedAB w).wellFormed = true) :
    decodeOp w = .ok (.reservedAB w) := by
  have hrow : OpRow.holds ⟨0xA00000#24, 0xE00000#24⟩ w = true := h
  have hop : ∀ v : BitVec 4, v &&& 0xE#4 = 0xA#4 → v = 0xA#4 ∨ v = 0xB#4 := by decide
  obtain hA | hB := hop (opField w) (OpRow.holds_iff.mp hrow).1
  · simp [decodeOp, hA]
  · simp [decodeOp, hB]

theorem decodeOp_reservedCF {w : OpWord} (h : (Instr.reservedCF w).wellFormed = true) :
    decodeOp w = .ok (.reservedCF w) := by
  have hrow : OpRow.holds ⟨0xC00000#24, 0xC00000#24⟩ w = true := h
  have hop : ∀ v : BitVec 4, v &&& 0xC#4 = 0xC#4 → v = 0xC#4 ∨ v = 0xD#4 ∨ v = 0xE#4 ∨ v = 0xF#4 := by decide
  obtain hC | hD | hE | hF := hop (opField w) (OpRow.holds_iff.mp hrow).1
  · simp [decodeOp, hC]
  · simp [decodeOp, hD]
  · simp [decodeOp, hE]
  · simp [decodeOp, hF]

/-- A well-formed operation is what its word decodes to. -/
theorem decode_encode {i : Instr} (h : i.wellFormed = true) : decode (encode i) = .ok i := by
  cases i with
  | set ht hu mt mu st su =>
    rw [encode_set, decode, decodeOp_set (opField_append _ _), payload_append, decodeS_fields]
  | step b => rw [encode_step, decode, decodeOp_step (opField_append _ _), payload_append, decodeB_lines]
  | reservedAB w => exact decodeOp_reservedAB h
  | reservedCF w => exact decodeOp_reservedCF h
  | _ => rfl

/-- Settles O1, by the constructor: SET and STEP by their fields, the reserved rows by their opcodes, the operations
without an operand by evaluation. -/
theorem encodeThenDecode : Obligations.EncodeThenDecode := by
  unfold Obligations.EncodeThenDecode
  exact fun i h => decode_encode h

/-! ### What decodes is an encoding -/

/-- A word of format Z that decodes is the operation's own word. -/
theorem encode_of_decodeZ {w : OpWord} {op : BitVec 4} {i j : Instr} (h : decodeZ (payload w) j = .ok i)
    (henc : encode j = .opWord (encodeZ op)) (hj : j.wellFormed = true) (hop : (opField w).toNat = op.toNat) :
    encode i = .opWord w ∧ i.wellFormed = true := by
  unfold decodeZ at h
  split at h
  next hpay =>
    cases h
    refine ⟨?_, hj⟩
    rw [henc, encodeZ, ← BitVec.eq_of_toNat_eq hop, ← hpay, opField_append_payload]
  next => cases h

/-- A word of format B that decodes is STEP's own word. -/
theorem encode_of_decodeB {w : OpWord} {i : Instr} (hop : opField w = 0x9#4) (h : decodeB (payload w) = .ok i) :
    encode i = .opWord w ∧ i.wellFormed = true := by
  unfold decodeB at h
  split at h
  next hpay =>
    cases h
    refine ⟨?_, rfl⟩
    rw [encode_step, lines_of_payload hpay, ← hop, opField_append_payload]
  next => cases h

/-- A word with an opcode of a reserved row is well-formed there. -/
theorem wellFormed_reserved {w : OpWord} :
    ((opField w).toNat = 0xA ∨ (opField w).toNat = 0xB → (Instr.reservedAB w).wellFormed = true) ∧
      (0xC ≤ (opField w).toNat → (Instr.reservedCF w).wellFormed = true) := by
  have hAB : ∀ v : BitVec 4, v.toNat = 0xA ∨ v.toNat = 0xB → v &&& 0xE#4 = 0xA#4 := by decide
  have hCF : ∀ v : BitVec 4, 0xC ≤ v.toNat → v &&& 0xC#4 = 0xC#4 := by decide
  exact ⟨fun h => (OpRow.holds_iff (r := ⟨0xA00000#24, 0xE00000#24⟩)).mpr ⟨hAB _ h, BitVec.and_zero⟩,
    fun h => (OpRow.holds_iff (r := ⟨0xC00000#24, 0xC00000#24⟩)).mpr ⟨hCF _ h, BitVec.and_zero⟩⟩

/-- A word that decodes is the word of a well-formed operation: the branches of R77, one for each opcode. -/
theorem encode_of_decodeOp {w : OpWord} {i : Instr} (h : decodeOp w = .ok i) :
    encode i = .opWord w ∧ i.wellFormed = true := by
  obtain ⟨wellFormedAB, wellFormedCF⟩ := wellFormed_reserved (w := w)
  unfold decodeOp at h
  split at h
  case h_1 hop =>
    cases h
    have hop : opField w = 0x0#4 := BitVec.eq_of_toNat_eq hop
    exact ⟨by rw [encode_decodeS, ← hop, opField_append_payload], rfl⟩
  case h_2 hop | h_3 hop | h_4 hop | h_5 hop | h_6 hop | h_7 hop | h_8 hop | h_9 hop =>
    exact encode_of_decodeZ h rfl rfl hop
  case h_10 hop => exact encode_of_decodeB (BitVec.eq_of_toNat_eq hop) h
  case h_11 hop =>
    cases h
    exact ⟨rfl, wellFormedAB (.inl hop)⟩
  case h_12 hop =>
    cases h
    exact ⟨rfl, wellFormedAB (.inr hop)⟩
  case h_13 =>
    cases h
    simp only [imp_false] at *
    exact ⟨rfl, wellFormedCF (by omega)⟩

/-- An item that decodes is the encoding of a well-formed operation: a word by `encode_of_decodeOp`, a digit by the decoder's
one row. -/
theorem encode_of_decode {x : Issue} {i : Instr} (h : decode x = .ok i) : encode i = x ∧ i.wellFormed = true := by
  cases x with
  | opWord w => exact encode_of_decodeOp h
  | digit d =>
    cases h
    exact ⟨rfl, rfl⟩

/-- Settles O2, by `encode_of_decode`. -/
theorem decodeThenEncode : Obligations.DecodeThenEncode := by
  unfold Obligations.DecodeThenEncode
  exact fun x i h => encode_of_decode h

/-! ### The rows of the opcode map -/

/-- Two rows whose patterns agree where both masks look are one row. -/
theorem opRows_disjoint :
    ∀ a ∈ opRows, ∀ b ∈ opRows, a.pattern &&& b.mask = b.pattern &&& a.mask → a = b := by decide

theorem eq_of_holds {w : OpWord} {a b : OpRow} (ha : a ∈ opRows) (hb : b ∈ opRows) (hwa : a.holds w = true)
    (hwb : b.holds w = true) : a = b := by
  rw [OpRow.holds, beq_iff_eq] at hwa hwb
  refine opRows_disjoint a ha b hb ?_
  rw [← hwa, ← hwb, BitVec.and_assoc, BitVec.and_assoc, BitVec.and_comm a.mask]

theorem mem_opRows_of_rowOf {i : Instr} {row : OpRow} (h : rowOf i = some row) : row ∈ opRows := by
  cases i <;> cases h <;> decide

/-- Every encoding lies in its operation's row, constructor by constructor. -/
theorem rowMatch : ∀ i : Instr, Laws.RowMatch.Statement i
  | .set ht hu mt mu st su => Laws.RowMatch.set ht hu mt mu st su
  | .toggleFormat => Laws.RowMatch.toggleFormat
  | .incMinute => Laws.RowMatch.incMinute
  | .decMinute => Laws.RowMatch.decMinute
  | .incHour => Laws.RowMatch.incHour
  | .decHour => Laws.RowMatch.decHour
  | .advanceSecond => Laws.RowMatch.advanceSecond
  | .refresh => Laws.RowMatch.refresh
  | .hourUpAction => Laws.RowMatch.hourUpAction
  | .step b => Laws.RowMatch.step b
  | .segdec d => Laws.RowMatch.segdec d
  | .reservedAB w => Laws.RowMatch.reservedAB w
  | .reservedCF w => Laws.RowMatch.reservedCF w

theorem holds_rowOf {i : Instr} {w : OpWord} (hwf : i.wellFormed = true) (henc : encode i = .opWord w) :
    ∃ row, rowOf i = some row ∧ row.holds w = true := by
  have h := rowMatch i hwf
  cases hrow : rowOf i with
  | some row =>
    simp only [hrow, henc, Issue.opWord.injEq, exists_eq_left'] at h
    exact ⟨row, rfl, h⟩
  | none => simp [hrow, henc] at h

/-- A row without operands holds its one word. -/
theorem encode_of_holds_pattern {i : Instr} {k w : OpWord} (h : OpRow.holds ⟨k, 0xFFFFFF#24⟩ w = true)
    (hwf : i.wellFormed = true) (henc : encode i = .opWord k) :
    ∃ i : Instr, i.wellFormed = true ∧ encode i = .opWord w := by
  rw [OpRow.holds, beq_iff_eq] at h
  have hw : w = k := BitVec.and_allOnes.symm.trans h
  exact ⟨i, hwf, hw ▸ henc⟩

theorem encode_of_holds_set {w : OpWord} (h : OpRow.holds ⟨0x000000#24, 0xF00000#24⟩ w = true) :
    ∃ i : Instr, i.wellFormed = true ∧ encode i = .opWord w := by
  have hop : opField w = 0x0#4 := BitVec.and_allOnes.symm.trans (OpRow.holds_iff.mp h).1
  exact ⟨decodeS (payload w), rfl, by rw [encode_decodeS, ← hop, opField_append_payload]⟩

theorem encode_of_holds_step {w : OpWord} (h : OpRow.holds ⟨0x900000#24, 0xFFFFE0#24⟩ w = true) :
    ∃ i : Instr, i.wellFormed = true ∧ encode i = .opWord w := by
  obtain ⟨hop, hpay⟩ := OpRow.holds_iff.mp h
  have hop : opField w = 0x9#4 := BitVec.and_allOnes.symm.trans hop
  have hzero : (payload w).extractLsb' 5 15 = 0#15 := by
    have hmid := congrArg (BitVec.extractLsb' 5 15) hpay
    rw [BitVec.extractLsb'_and] at hmid
    exact BitVec.and_allOnes.symm.trans hmid
  refine ⟨.step ((payload w).extractLsb' 0 5), rfl, ?_⟩
  rw [encode_step, lines_of_payload hzero, ← hop, opField_append_payload]

/-- Every word of a row is the word of a well-formed operation, row by row. -/
theorem encode_of_holds {w : OpWord} {row : OpRow} (hrow : row ∈ opRows) (h : row.holds w = true) :
    ∃ i : Instr, i.wellFormed = true ∧ encode i = .opWord w := by
  simp only [opRows, List.mem_cons, List.not_mem_nil, or_false] at hrow
  obtain rfl | rfl | rfl | rfl | rfl | rfl | rfl | rfl | rfl | rfl | rfl | rfl := hrow
  · exact encode_of_holds_set h
  · exact encode_of_holds_pattern (i := .toggleFormat) h rfl rfl
  · exact encode_of_holds_pattern (i := .incMinute) h rfl rfl
  · exact encode_of_holds_pattern (i := .decMinute) h rfl rfl
  · exact encode_of_holds_pattern (i := .incHour) h rfl rfl
  · exact encode_of_holds_pattern (i := .decHour) h rfl rfl
  · exact encode_of_holds_pattern (i := .advanceSecond) h rfl rfl
  · exact encode_of_holds_pattern (i := .refresh) h rfl rfl
  · exact encode_of_holds_pattern (i := .hourUpAction) h rfl rfl
  · exact encode_of_holds_step h
  · exact ⟨.reservedAB w, h, rfl⟩
  · exact ⟨.reservedCF w, h, rfl⟩

/-- A word of some row decodes. -/
theorem decodeOp_of_holds {w : OpWord} {row : OpRow} (hrow : row ∈ opRows) (h : row.holds w = true) :
    ∃ i, decodeOp w = .ok i := by
  obtain ⟨i, hwf, henc⟩ := encode_of_holds hrow h
  have hdec := decode_encode hwf
  rw [henc] at hdec
  exact ⟨i, hdec⟩

theorem decodeZ_error {p : BitVec 20} {i : Instr} {e : ReservedReason} (h : decodeZ p i = .error e) :
    e = .nonzeroReservedField := by
  unfold decodeZ at h
  split at h <;> cases h
  rfl

theorem decodeB_error {p : BitVec 20} {e : ReservedReason} (h : decodeB p = .error e) : e = .nonzeroReservedField := by
  unfold decodeB at h
  split at h <;> cases h
  rfl

/-- The decoder has one reason to reject a word: format Z and format B alone reject. -/
theorem decodeOp_error {w : OpWord} {e : ReservedReason} (h : decodeOp w = .error e) : e = .nonzeroReservedField := by
  unfold decodeOp at h
  split at h
  case h_1 | h_11 | h_12 | h_13 => cases h
  case h_10 => exact decodeB_error h
  all_goals exact decodeZ_error h

/-- Settles O3: the rows are disjoint by their masks (`eq_of_holds`), a word that decodes is an encoding and lies in its
operation's row (`holds_rowOf`), and a word of a row is an encoding and decodes (`decodeOp_of_holds`). -/
theorem opcodeMapIsUnambiguous : Obligations.OpcodeMapIsUnambiguous := by
  unfold Obligations.OpcodeMapIsUnambiguous
  refine fun w => ⟨fun a ha b hb => eq_of_holds ha hb, fun i h => ?ok, fun e h => ⟨decodeOp_error h, fun row hrow => ?error⟩⟩
  case ok =>
    obtain ⟨henc, hwf⟩ := encode_of_decodeOp h
    obtain ⟨row, hrow, hholds⟩ := holds_rowOf hwf henc
    exact ⟨row, mem_opRows_of_rowOf hrow, hrow, hholds⟩
  case error =>
    rw [← Bool.not_eq_true]
    intro hholds
    obtain ⟨i, hok⟩ := decodeOp_of_holds hrow hholds
    rw [hok] at h
    cases h

/-! ### The packed TimeValue and the words of the spec's tables -/

/-- Settles O4: the packed TimeValue is the concatenation of the six fields, valued by `toNat_append_eq_add`, and SET's
payload (`encode_set`). -/
theorem packedTimeFields : Obligations.PackedTimeFields := by
  unfold Obligations.PackedTimeFields
  intro W r
  constructor
  · simp only [Machine.Regs.timeWord, toNat_append_eq_add]
    omega
  · rw [encode_set, ← Machine.Regs.timeWord, Issue.opWord.injEq, ← BitVec.toNat_inj, toNat_append_eq_add,
      BitVec.toNat_ofNat]
    bv_omega

/-- Settles O5, by decoding the ten items. -/
theorem writtenWordsDecode : Obligations.WrittenWordsDecode := by
  unfold Obligations.WrittenWordsDecode
  decide

/-- Settles O6, by assembling the seven lines. -/
theorem assemblerLinesOfThePrograms : Obligations.AssemblerLinesOfThePrograms := by
  unfold Obligations.AssemblerLinesOfThePrograms
  decide

end Sys2Proof
end

section
/-! PROOFS. The statements about a step of the machine: reset, the direct operation interface, the two marks, and what every
step keeps (45_main_loop.md, 60_exceptions.md). -/

namespace Sys2Proof.Machine

variable {W : Nat}

/-! ### Reset -/

/-- Settles O7, by evaluating the reset state. -/
theorem resetRegisters : Obligations.ResetRegisters := by
  unfold Obligations.ResetRegisters
  exact ⟨rfl, rfl, rfl, rfl⟩

/-- Settles O8, by evaluating the ranges of Valid on the reset registers; DSEL is 0. -/
theorem resetMeetsInvariant : Obligations.ResetMeetsInvariant := by
  unfold Obligations.ResetMeetsInvariant
  have hv : State.reset.regs.Valid State.reset.params := by decide
  exact ⟨⟨rfl, hv, .inl rfl⟩, ⟨rfl, rfl⟩, hv⟩

/-! ### The direct operation interface -/

theorem step_of_decode {s : State} {x : Issue} {rest : List Issue} {i : Instr} (hp : s.env.pending = x :: rest)
    (hd : decode x = .ok i) : step s = runOp i (s.withPending rest) := by
  simp only [step, stepCore, hp, runIssue, hd]

theorem step_of_reject {s : State} {x : Issue} {rest : List Issue} {e : ReservedReason} (hp : s.env.pending = x :: rest)
    (hd : decode x = .error e) : step s = .next ((s.withPending rest).markRefused e) := by
  simp only [step, stepCore, hp, runIssue, hd, refuse]

theorem step_of_idle {s : State} (hp : s.env.pending = []) : step s = runOp (.step (drawnLines s.env.draws)) s := by
  simp only [step, stepCore, hp, runAlone]

/-- An operation runs at the state as it stands, but that STEP at PHASE 5 takes the next draw of the pins (R199, R212). -/
theorem runOp_cases (i : Instr) (s : State) :
    (¬ ((∃ b, i = .step b) ∧ s.regs.PHASE = 5) → runOp i s = exec i s) ∧
    ((∃ b, i = .step b) → s.regs.PHASE = 5 →
      runOp i s = exec i { s with env := { s.env with draws := s.env.draws + 1 } }) := by
  refine ⟨fun h => runOp_of_not_ends ?_, fun hi hphase => ?_⟩
  · rwa [← Bool.not_eq_true, endsIteration_iff]
  · rw [runOp, endsIteration_iff.mpr ⟨hi, hphase⟩]
    rfl

/-- Settles O9: the waiting operation is `runOp` of the state without its item. -/
theorem stepRunsWaitingOperation : Obligations.StepRunsWaitingOperation := by
  unfold Obligations.StepRunsWaitingOperation
  intro s x rest i hp hd
  rw [step_of_decode hp hd]
  exact runOp_cases i (s.withPending rest)

/-- Settles O10: with nothing waiting the step is `runOp` of STEP. -/
theorem stepAloneIsTheSequencer : Obligations.StepAloneIsTheSequencer := by
  unfold Obligations.StepAloneIsTheSequencer
  intro s hp
  rw [step_of_idle hp]
  obtain ⟨hstay, hends⟩ := runOp_cases (.step (drawnLines s.env.draws)) s
  exact ⟨fun hphase => hstay fun h => hphase h.2, hends ⟨_, rfl⟩⟩

/-- The bits of a table row that decode are a presented item that decodes. -/
theorem issueOf_of_decodeTableWord {nbits w : Nat} {i : Instr} (h : decodeTableWord nbits w = some i) :
    ∃ x, issueOf nbits w = some x ∧ decode x = .ok i := by
  unfold decodeTableWord at h
  cases hx : issueOf nbits w with
  | none => simp [hx] at h
  | some x =>
    cases hd : decode x with
    | ok j =>
      simp only [hx, hd, Option.some.injEq] at h
      exact ⟨x, rfl, h ▸ hd⟩
    | error e => simp [hx, hd] at h

/-- A placed item is what the next step runs, at the state it was placed in. -/
theorem step_withFetchWord {s : State} {nbits w : Nat} {i : Instr} (h : decodeTableWord nbits w = some i) :
    step (s.withFetchWord nbits w) = runOp i s := by
  obtain ⟨x, hx, hd⟩ := issueOf_of_decodeTableWord h
  simp only [State.withFetchWord, hx, present]
  exact step_of_decode (State.withPending_pending s _) hd

/-- Settles O11: the step takes the placed item and runs it (`step_withFetchWord`). -/
theorem placedWordRunsNext : Obligations.PlacedWordRunsNext := by
  unfold Obligations.PlacedWordRunsNext
  intro s nbits w i h
  rw [step_withFetchWord h]
  exact runOp_cases i s

/-! ### Faults -/

/-- Settles O12: the two outcomes of SET. -/
theorem setOverwritesDigits : Obligations.SetOverwritesDigits := by
  unfold Obligations.SetOverwritesDigits
  intro s ht hu mt mu st su ⟨hfault, _⟩
  exact ⟨exec_set_of_valid hfault, exec_set_of_invalid hfault⟩

/-- Settles O43: an operation that checks its state is guarded, whatever its effect. -/
theorem invalidStateFaults : Obligations.InvalidStateFaults := by
  unfold Obligations.InvalidStateFaults
  intro s i ⟨hfault, _⟩ hv hi
  obtain ⟨f, hf⟩ := effect_of_checksState hi
  exact exec_of_invalid hf hfault hv

/-- Settles O44: an operation that checks its state is guarded, and SET is enabled under the same condition. -/
theorem markedStateIsNotEnabled : Obligations.MarkedStateIsNotEnabled := by
  unfold Obligations.MarkedStateIsNotEnabled
  intro s i hfault hi
  obtain hi | ⟨ht, hu, mt, mu, st, su, rfl⟩ := hi
  · obtain ⟨f, hf⟩ := effect_of_checksState hi
    exact (exec_effect hf).trans (guarded_of_faulted hfault)
  · exact whenEnabled_of_faulted hfault

/-! ### Refused words -/

/-- Settles O45: both reserved rows execute the refusal of R233. -/
theorem reservedWordOnlyMarks : Obligations.ReservedWordOnlyMarks := by
  unfold Obligations.ReservedWordOnlyMarks
  rintro s w i _ (rfl | rfl)
  · rfl
  · rfl

/-- A word of no row is rejected, for the only reason the decoder has. -/
theorem decodeOp_of_no_row {w : OpWord} (h : ∀ row ∈ opRows, row.holds w = false) :
    decodeOp w = .error .nonzeroReservedField := by
  cases hd : decodeOp w with
  | error e => rw [decodeOp_error hd]
  | ok i =>
    obtain ⟨henc, hwf⟩ := encode_of_decodeOp hd
    obtain ⟨row, hrow, hholds⟩ := holds_rowOf hwf henc
    rw [h row (mem_opRows_of_rowOf hrow)] at hholds
    cases hholds

/-- Settles O46: a word of no row is rejected by the decoder, and the step records that. -/
theorem unmatchedWordOnlyMarks : Obligations.UnmatchedWordOnlyMarks := by
  unfold Obligations.UnmatchedWordOnlyMarks
  intro s w rest _ hp hrows
  exact step_of_reject hp (decodeOp_of_no_row hrows)

/-- A refused reason joins the mark; the other reason stays as it was. -/
theorem RefusedSet.le_add (R : RefusedSet) (e : ReservedReason) :
    (R.reservedOpcode = true → (R.add e).reservedOpcode = true) ∧
      (R.nonzeroReservedField = true → (R.add e).nonzeroReservedField = true) := by
  cases e
  · exact ⟨fun _ => rfl, id⟩
  · exact ⟨id, fun _ => rfl⟩

/-! ### What every step keeps -/

/-- No operation writes the parameters or FAULT, and REFUSED only grows. -/
theorem exec_frame {i : Instr} {s t : State} (h : exec i s = .next t) :
    t.params = s.params ∧ t.FAULT = s.FAULT ∧
      (t.REFUSED = s.REFUSED ∨ checksState i = false ∧ ∃ e, t.REFUSED = s.REFUSED.add e) := by
  obtain ⟨f, -, -, rfl⟩ | ⟨ht, hu, mt, mu, st, su, -, -, -, rfl⟩ | ⟨d, -, rfl⟩ | ⟨hi, rfl⟩ := exec_next h
  · exact ⟨rfl, rfl, .inl rfl⟩
  · exact ⟨rfl, rfl, .inl rfl⟩
  · exact ⟨rfl, rfl, .inl rfl⟩
  · obtain ⟨w, rfl⟩ | ⟨w, rfl⟩ := hi <;> exact ⟨rfl, rfl, .inr ⟨rfl, .reservedOpcode, rfl⟩⟩

/-- The same of a step; a reason joins REFUSED only from a waiting item. -/
theorem step_frame {s t : State} (h : step s = .next t) :
    t.params = s.params ∧ t.FAULT = s.FAULT ∧
      (t.REFUSED = s.REFUSED ∨ s.env.pending ≠ [] ∧ ∃ e, t.REFUSED = s.REFUSED.add e) := by
  obtain ⟨x, rest, i, hp, -, hstep⟩ | ⟨x, rest, e, hp, -, hstep⟩ | ⟨-, hstep⟩ := step_cases s <;> rw [hstep] at h
  · obtain ⟨hparams, hfault, hrefused⟩ := exec_frame h
    exact ⟨hparams, hfault, hrefused.imp_right fun ⟨_, hadd⟩ => ⟨by simp [hp], hadd⟩⟩
  · cases h
    exact ⟨rfl, rfl, .inr ⟨by simp [hp], e, rfl⟩⟩
  · obtain ⟨hparams, hfault, hrefused | ⟨hi, -⟩⟩ := exec_frame h
    · exact ⟨hparams, hfault, .inl hrefused⟩
    · cases hi

/-- Settles O51, from `step_frame`. -/
theorem parametersNeverWritten : Obligations.ParametersNeverWritten := by
  unfold Obligations.ParametersNeverWritten
  exact fun s t h => (step_frame h).1

/-- Settles O50: FAULT and REFUSED of `step_frame`, where adding a reason removes none. -/
theorem marksAreSticky : Obligations.MarksAreSticky := by
  unfold Obligations.MarksAreSticky
  intro s t h
  obtain ⟨-, hfault, hsame | ⟨hp, e, hadd⟩⟩ := step_frame h
  · exact ⟨hfault, fun hr => hsame ▸ hr, fun hr => hsame ▸ hr, fun _ => hsame⟩
  · obtain ⟨hopcode, hfield⟩ := s.REFUSED.le_add e
    exact ⟨hfault, fun hr => hadd ▸ hopcode hr, fun hr => hadd ▸ hfield hr, fun hnil => absurd hnil hp⟩

/-- Settles O47: a register effect keeps Valid (`valid_effect`), the other operations write no register. -/
theorem operationsKeepValid : Obligations.OperationsKeepValid := by
  unfold Obligations.OperationsKeepValid
  intro i hi s hs
  have ⟨⟨hfault, _⟩, hv⟩ := hs
  cases he : (effect i : Option (Params → Regs s.width → Regs s.width)) with
  | some f => exact ⟨_, exec_of_sound he hs, hfault, valid_effect he s.width_fits hv⟩
  | none =>
    cases i <;> simp only [effect, reduceCtorEq] at he
    case set ht hu mt mu st su => exact absurd rfl (hi ht hu mt mu st su)
    all_goals exact ⟨_, rfl, hfault, hv⟩

/-- REFRESH selects one line. -/
theorem refresh_selectLegal {p : Params} {r : Regs W} (hcur : r.CUR.toNat ≤ 5) : (refresh p r).SelectLegal := by
  obtain ⟨-, hDSEL, -⟩ := refresh_display p r
  exact .inr ⟨⟨r.CUR.toNat, by omega⟩, hDSEL⟩

/-- A register effect leaves DSEL alone or selects one line (R160). -/
theorem effect_selectLegal {i : Instr} {f : Params → Regs W → Regs W} (he : effect i = some f) {p : Params} {r : Regs W}
    (hv : r.Valid p) (hsel : r.SelectLegal) : (f p r).SelectLegal := by
  have ⟨_, _, hcur, _⟩ := hv
  by_cases hi : i = .refresh
  · subst hi
    cases he
    exact refresh_selectLegal hcur
  · by_cases hstep : ∀ b, i = .step b → r.PHASE ≠ 5
    · have hDSEL := (effect_offRefresh he hi hstep hv).1.DSEL
      rwa [Regs.SelectLegal, hDSEL]
    · simp only [not_forall, not_not] at hstep
      obtain ⟨b, rfl, hphase⟩ := hstep
      cases he
      rw [sequencerStep_refresh b (congrArg BitVec.toNat hphase)]
      exact refresh_selectLegal hcur

/-- Every operation that gives a next state keeps the invariant. -/
theorem exec_keepsInv {i : Instr} {s t : State} (hs : s.Inv) (h : exec i s = .next t) : t.Inv := by
  obtain ⟨hfault, hv, hsel⟩ := hs
  obtain ⟨f, he, -, rfl⟩ | ⟨ht, hu, mt, mu, st, su, -, -, hset, rfl⟩ | ⟨d, -, rfl⟩ | ⟨-, rfl⟩ := exec_next h
  · exact ⟨hfault, valid_effect he s.width_fits hv, effect_selectLegal he hv hsel⟩
  · exact ⟨hfault, hset, hsel⟩
  · exact ⟨hfault, hv, hsel⟩
  · exact ⟨hfault, hv, hsel⟩

/-- Settles O48: an operation keeps the invariant (`exec_keepsInv`), and what a step adds around it, the queue, the count of
the draws and a refusal, is no hardware state. -/
theorem stepKeepsInvariant : Obligations.StepKeepsInvariant := by
  unfold Obligations.StepKeepsInvariant
  intro s t hs h
  obtain ⟨x, rest, i, -, -, hstep⟩ | ⟨x, rest, e, -, -, hstep⟩ | ⟨-, hstep⟩ := step_cases s <;> rw [hstep] at h
  · exact exec_keepsInv (s := (s.withPending rest).countDraw _) hs h
  · cases h
    exact hs
  · exact exec_keepsInv (s := s.countDraw _) hs h

/-! ### What stops a step -/

theorem exec_not_refused {i : Instr} {s : State} {e : Refusal} : exec i s ≠ .refused e := by
  cases he : (effect i : Option (Params → Regs s.width → Regs s.width)) with
  | some f =>
    rw [exec_effect he]
    exact guarded_not_refused
  | none =>
    cases i <;> simp only [effect, reduceCtorEq] at he
    case set ht hu mt mu st su =>
      by_cases hfault : s.FAULT = ⟨false⟩
      · by_cases hv : (s.regs.writeDigits ht hu mt mu st su).Valid s.params
        · simp [exec_set_of_valid hfault hv]
        · simp [exec_set_of_invalid hfault hv]
      · exact (whenEnabled_of_faulted hfault).trans_ne (by simp)
    all_goals exact fun h => by cases h

theorem step_not_refused {s : State} {e : Refusal} : step s ≠ .refused e := by
  obtain ⟨x, rest, i, -, -, hstep⟩ | ⟨x, rest, e, -, -, hstep⟩ | ⟨-, hstep⟩ := step_cases s <;> rw [hstep]
  · exact exec_not_refused
  · simp
  · exact exec_not_refused

/-- On an enabled, Valid state only SET stops, and only where the written digits break Valid. -/
theorem exec_fault_of_valid {i : Instr} {s : State} {e : Fault} (hfault : s.FAULT = ⟨false⟩)
    (hv : s.regs.Valid s.params) (h : exec i s = .fault e) :
    ∃ ht hu mt mu st su, i = .set ht hu mt mu st su ∧ ¬ (s.regs.writeDigits ht hu mt mu st su).Valid s.params := by
  obtain ⟨hf, -⟩ | ⟨-, -, ⟨-, hbad⟩ | hset⟩ := exec_fault h
  · exact absurd hfault hf
  · exact absurd hv hbad
  · exact hset

/-- Settles O49: the operation that stops is a SET (`exec_fault_of_valid`), so it is no STEP of the sequencer, and its item
is its encoding (`encode_of_decode`). -/
theorem onlyBadSetStops : Obligations.OnlyBadSetStops := by
  unfold Obligations.OnlyBadSetStops
  refine ⟨fun s f ⟨hfault, hv, _⟩ h => ?_, fun s e => step_not_refused⟩
  obtain ⟨x, rest, i, hp, hd, hstep⟩ | ⟨x, rest, e, -, -, hstep⟩ | ⟨-, hstep⟩ := step_cases s <;> rw [hstep] at h
  · obtain ⟨ht, hu, mt, mu, st, su, rfl, hbad⟩ :=
      exec_fault_of_valid (s := (s.withPending rest).countDraw _) hfault hv h
    have henc := (encode_of_decode hd).1
    exact ⟨ht, hu, mt, mu, st, su, rest, by rw [hp, henc], hbad⟩
  · cases h
  · obtain ⟨_, _, _, _, _, _, hset, -⟩ := exec_fault_of_valid (s := s.countDraw _) hfault hv h
    cases hset

/-! ### Other delays -/

/-- The same parameters with other delays. -/
def withDelayMs (p : Params) (a b c : Nat) : Params :=
  { p with delayRefreshMs := a, delayMinorMs := b, delayHourMs := c }

/-- No register effect depends on a delay (R276). -/
theorem effect_withDelayMs {i : Instr} {f : Params → Regs W → Regs W} (he : effect i = some f) (p : Params) (r : Regs W)
    (a b c : Nat) : f (withDelayMs p a b c) r = f p r := by
  cases i <;> cases he <;> rfl

/-- An operation that gives a next state gives the same one under other delays. -/
theorem exec_withDelays {i : Instr} {s t : State} (h : exec i s = .next t) (a b c : Nat) :
    exec i (s.withDelays a b c) = .next (t.withDelays a b c) := by
  obtain ⟨f, he, ⟨hfault, hv⟩, rfl⟩ | ⟨ht, hu, mt, mu, st, su, rfl, hfault, hv, rfl⟩ | ⟨d, rfl, rfl⟩ | ⟨hi, rfl⟩ :=
    exec_next h
  · rw [← effect_withDelayMs he s.params s.regs a b c]
    exact exec_of_valid (s := s.withDelays a b c) he hfault hv
  · exact exec_set_of_valid (s := s.withDelays a b c) hfault hv
  · rfl
  · obtain ⟨w, rfl⟩ | ⟨w, rfl⟩ := hi <;> rfl

/-- Settles O52: the step runs the same operation under other delays, and the operation does not depend on them. -/
theorem delaysHaveNoEffect : Obligations.DelaysHaveNoEffect := by
  unfold Obligations.DelaysHaveNoEffect
  intro s t a b c _ h
  obtain ⟨x, rest, i, hp, hd, hstep⟩ | ⟨x, rest, e, hp, hd, hstep⟩ | ⟨hp, hstep⟩ := step_cases s <;> rw [hstep] at h
  · exact (step_of_decode (s := s.withDelays a b c) hp hd).trans (exec_withDelays h a b c)
  · cases h
    exact step_of_reject (s := s.withDelays a b c) hp hd
  · exact (step_of_idle (s := s.withDelays a b c) hp).trans (exec_withDelays h a b c)

end Sys2Proof.Machine
end

section
/-! PROOFS. The statements of 41_time_model.md about whole operations of BCD_time_keeper and about runs of them: the minute
and the hour as one number each, the seconds through `Regs.clock`. -/

namespace Sys2Proof.Machine

variable {W : Nat}

/-! ### Operations and runs of operations as register effects -/

/-- On a sound state an operation leaves the registers its effect computes. -/
theorem exec_of_effect_eq {i : Instr} {s : State} {f : Params → Regs s.width → Regs s.width} {q : Regs s.width}
    (he : effect i = some f) (hs : s.Sound) (hq : f s.params s.regs = q) : exec i s = .next (s.withRegs q) :=
  hq ▸ exec_of_sound he hs

theorem State.Sound.effect {i : Instr} {s : State} {f : Params → Regs s.width → Regs s.width} (hs : s.Sound)
    (he : effect i = some f) : (s.withRegs (f s.params s.regs)).Sound :=
  ⟨hs.1, valid_effect he s.width_fits hs.2⟩

/-- A run on a sound state begins with its first operation's effect. -/
theorem execAll_effect {i : Instr} {is : List Instr} {s : State} {f : Params → Regs s.width → Regs s.width}
    (he : effect i = some f) (hs : s.Sound) :
    execAll (i :: is) s = execAll is (s.withRegs (f s.params s.regs)) :=
  execAll_cons (exec_of_sound he hs)

/-- One operation n times is its effect n times: the induction behind every statement about n operations. -/
theorem execAll_replicate {i : Instr} {s : State} {f : Params → Regs s.width → Regs s.width} (he : effect i = some f)
    (hs : s.Sound) (n : Nat) :
    execAll (List.replicate n i) s = .next (s.withRegs ((f s.params)^[n] s.regs)) := by
  induction n generalizing s with
  | zero => rfl
  | succ n ih =>
    rw [List.replicate_succ, execAll_effect he hs]
    exact ih (s := s.withRegs _) he (hs.effect he)

/-- Two operations are the composition of their effects. -/
theorem execAll_pair {i j : Instr} {s : State} {f g : Params → Regs s.width → Regs s.width} (hf : effect i = some f)
    (hg : effect j = some g) (hs : s.Sound) :
    execAll [i, j] s = .next (s.withRegs (g s.params (f s.params s.regs))) := by
  rw [execAll_effect hf hs]
  exact execAll_effect (s := s.withRegs _) hg (hs.effect hf)

/-! ### The minute -/

/-- The registers with another minute. -/
def Regs.setMinute (r : Regs W) (v : Nat) : Regs W :=
  { r with MT := BitVec.ofNat 3 (v / 10), MU := BitVec.ofNat 4 (v % 10) }

theorem Regs.setMinute_minute {r : Regs W} {v : Nat} (hv : v < 60) : (r.setMinute v).minute = v := by
  simp only [Regs.minute, Regs.setMinute, BitVec.toNat_ofNat]
  exact pair_value_sixty hv

theorem Regs.setMinute_self {p : Params} {r : Regs W} (hv : r.Valid p) : r.setMinute r.minute = r := by
  obtain ⟨⟨-, -, -, hMU, -⟩, -⟩ := hv
  exact (Regs.withMinute_eq (t := r.MT) hMU rfl).symm

theorem Regs.minute_lt {p : Params} {r : Regs W} (hv : r.Valid p) : r.minute < 60 := by
  obtain ⟨⟨-, -, hMT, hMU, -⟩, -⟩ := hv
  rw [Regs.minute]
  omega

theorem incMinute_eq_setMinute {p : Params} {r : Regs W} (hv : r.Valid p) :
    incMinute r = r.setMinute ((r.minute + 1) % 60) := by
  obtain ⟨⟨-, -, hMT, hMU, -⟩, -⟩ := hv
  exact incMinute_eq hMT hMU

theorem decMinute_eq_setMinute {p : Params} {r : Regs W} (hv : r.Valid p) :
    decMinute r = r.setMinute ((r.minute + 59) % 60) := by
  obtain ⟨⟨-, -, hMT, hMU, -⟩, -⟩ := hv
  exact decMinute_eq hMT hMU

/-- Settles O14: both effects set the minute. -/
theorem minuteStepsModSixty : Obligations.MinuteStepsModSixty := by
  unfold Obligations.MinuteStepsModSixty
  exact fun s hs => ⟨exec_of_effect_eq rfl hs (incMinute_eq_setMinute hs.2),
    exec_of_effect_eq rfl hs (decMinute_eq_setMinute hs.2)⟩

theorem decMinute_incMinute {p : Params} {r : Regs W} (hv : r.Valid p) : decMinute (incMinute r) = r := by
  have hlt := Regs.minute_lt hv
  rw [decMinute_eq_setMinute (valid_incMinute hv), incMinute_eq_setMinute hv, Regs.setMinute_minute (by omega),
    show ((r.minute + 1) % 60 + 59) % 60 = r.minute by omega]
  exact Regs.setMinute_self hv

theorem incMinute_decMinute {p : Params} {r : Regs W} (hv : r.Valid p) : incMinute (decMinute r) = r := by
  have hlt := Regs.minute_lt hv
  rw [incMinute_eq_setMinute (valid_decMinute hv), decMinute_eq_setMinute hv, Regs.setMinute_minute (by omega),
    show ((r.minute + 59) % 60 + 1) % 60 = r.minute by omega]
  exact Regs.setMinute_self hv

/-- Settles O21: the effects undo each other. -/
theorem minuteRoundTrip : Obligations.MinuteRoundTrip := by
  unfold Obligations.MinuteRoundTrip
  intro s hs
  rw [execAll_pair rfl rfl hs, execAll_pair rfl rfl hs, decMinute_incMinute hs.2, incMinute_decMinute hs.2]
  exact ⟨rfl, rfl⟩

/-! ### The hour -/

/-- Settles O15: both effects set the hour. -/
theorem hourStepsInFormat : Obligations.HourStepsInFormat := by
  unfold Obligations.HourStepsInFormat
  intro s hs
  obtain ⟨⟨hHT, hHU, -⟩, hhour, -⟩ := hs.2
  exact ⟨exec_of_effect_eq rfl hs (hourInc_eq hHT hHU hhour), exec_of_effect_eq rfl hs (decHour_eq hHT hHU hhour)⟩

/-- Settles O16: HOUR_UP_ACTION sets the hour INC_HOUR sets, but at the pre-check's 23, which only a 24h clock shows. -/
theorem hourUpActionPrecheck : Obligations.HourUpActionPrecheck := by
  unfold Obligations.HourUpActionPrecheck
  intro s hs
  obtain ⟨⟨hHT, hHU, -⟩, hhour, -⟩ := hs.2
  refine ⟨fun h => ⟨_, exec_of_sound rfl hs, exec_of_effect_eq rfl hs ?same⟩, fun hp h23 =>
    exec_of_effect_eq rfl hs (q := s.regs.setH 1) ?one⟩
  case same => rw [hourUp_eq hHT hHU hhour, if_neg h, hourInc_eq hHT hHU hhour]
  case one =>
    have hf : s.regs.FMT24 = true := by
      rw [← Bool.not_eq_false]
      intro hf
      have := hhour.2 hf
      omega
    rw [hourUp_eq hHT hHU hhour, if_pos hf, if_pos ⟨hp, h23⟩]

/-- Two conversions write the hour of the first and then the second conversion, and restore the flag (R111). -/
theorem toggleFormat_toggleFormat {p : Params} {r : Regs W} (hv : r.Valid p) :
    toggleFormat (toggleFormat r) = r.setH (convertHour (!r.FMT24) (convertHour r.FMT24 r.hour)) := by
  obtain ⟨-, hhour, -⟩ := hv
  have hb : convertHour r.FMT24 r.hour ≤ 29 := by
    obtain ⟨h24, h12⟩ := convertHour_inFormat hhour
    cases hf : flipFormat r.FMT24
    · have := h12 hf
      omega
    · have := h24 hf
      omega
  have h1 : (toggleFormat r).hour = convertHour r.FMT24 r.hour := Regs.setH_hour (r := r) hb
  rw [toggleFormat_eq (toggleFormat r), h1, toggleFormat_eq r]
  simp only [Bool.not_not]
  rfl

/-- The table of R111: from 24h mode and back. -/
theorem convertHour_twice_of_24 {h : Nat} (hh : h ≤ 23) :
    convertHour false (convertHour true h) = if h = 0 ∨ h = 12 then 0 else if h ≤ 11 then h + 12 else h := by
  simp only [convertHour_eq, if_true, Bool.false_eq_true, if_false]
  split_ifs <;> omega

theorem convertHour_twice_of_12 {h : Nat} (hh : 1 ≤ h ∧ h ≤ 12) : convertHour true (convertHour false h) = h := by
  by_cases hnoon : h = 12
  · rw [hnoon]
    rfl
  · have hafter : convertHour false h = h + 12 := by
      rw [convertHour_eq, if_neg Bool.false_ne_true, if_neg hnoon, Nat.mod_eq_of_lt (by omega)]
    rw [hafter, convertHour_eq, if_pos rfl, if_neg (by omega), if_pos (by omega), Nat.add_sub_cancel]

/-- Settles O20: the hour is converted twice (`toggleFormat_toggleFormat`), by the table in each direction. -/
theorem doubleToggleTable : Obligations.DoubleToggleTable := by
  unfold Obligations.DoubleToggleTable
  intro s hs
  obtain ⟨⟨hHT, hHU, -⟩, ⟨h24, h12⟩, -⟩ := hs.2
  rw [execAll_pair rfl rfl hs, toggleFormat_toggleFormat hs.2]
  refine ⟨fun hf => ?from24, fun hf => ?from12⟩
  case from24 =>
    rw [hf, Bool.not_true, convertHour_twice_of_24 (h24 hf)]
    rfl
  case from12 =>
    rw [hf, Bool.not_false, convertHour_twice_of_12 (h12 hf), Regs.setH_self hHT hHU, State.withRegs_self]

/-! ### The seconds -/

/-- Settles O17, by `advanceSecond_eq`. -/
theorem advanceSecondAddsOne : Obligations.AdvanceSecondAddsOne := by
  unfold Obligations.AdvanceSecondAddsOne
  exact fun s hs => exec_of_effect_eq rfl hs (advanceSecond_eq hs.2)

/-- The registers some seconds later are Valid at that clock number. -/
theorem Regs.valid_setClock_mod {p : Params} {r : Regs W} (hv : r.Valid p) (c : Nat) :
    (r.setClock (c % r.cycle)).Valid p ∧ (r.setClock (c % r.cycle)).clock = c % r.cycle := by
  have hpos : 0 < r.cycle := Nat.zero_lt_of_lt (Regs.clock_lt hv)
  obtain ⟨-, -, hcounters⟩ := hv
  exact Regs.valid_setClock hcounters (Nat.mod_lt _ hpos)

/-- n seconds add n to the clock number, modulo its cycle (R112). -/
theorem advanceSecond_iterate {p : Params} {r : Regs W} (hv : r.Valid p) (n : Nat) :
    advanceSecond^[n] r = r.setClock ((r.clock + n) % r.cycle) := by
  induction n with
  | zero => rw [Function.iterate_zero_apply, Nat.add_zero, Nat.mod_eq_of_lt (Regs.clock_lt hv), Regs.setClock_clock hv]
  | succ n ih =>
    obtain ⟨hvn, hclock⟩ := Regs.valid_setClock_mod hv (r.clock + n)
    have hcycle : (r.setClock ((r.clock + n) % r.cycle)).cycle = r.cycle := rfl
    rw [Function.iterate_succ_apply', ih, advanceSecond_eq hvn, hclock, hcycle, Nat.mod_add_mod, Regs.setClock_setClock,
      Nat.add_assoc]

/-- A run of n ADVANCE_SECONDs on a sound state. -/
theorem execAll_advanceSecond {s : State} (hs : s.Sound) (n : Nat) :
    execAll (List.replicate n .advanceSecond) s =
      .next (s.withRegs (s.regs.setClock ((s.regs.clock + n) % s.regs.cycle))) := by
  rw [execAll_replicate rfl hs, advanceSecond_iterate hs.2]

/-- Settles O18, by `execAll_advanceSecond`. -/
theorem manySecondsAddUp : Obligations.ManySecondsAddUp := by
  unfold Obligations.ManySecondsAddUp
  exact fun s n hs => execAll_advanceSecond hs n

/-- The packed TimeValue holds each digit: equal words are equal digits. -/
theorem Regs.digits_of_timeWord {V : Nat} {r : Regs W} {q : Regs V} (h : q.timeWord = r.timeWord) :
    q.HT = r.HT ∧ q.HU = r.HU ∧ q.MT = r.MT ∧ q.MU = r.MU ∧ q.ST = r.ST ∧ q.SU = r.SU := by
  have hsum := congrArg BitVec.toNat h
  simp only [Regs.timeWord, toNat_append_eq_add] at hsum
  simp only [← BitVec.toNat_inj]
  omega

/-- In one format the packed TimeValue and the clock number name the same Valid times. -/
theorem Regs.timeWord_setClock_iff {V : Nat} {p : Params} {q : Regs V} {r : Regs W} (hq : q.Valid p) (hr : r.Valid p)
    (hf : r.FMT24 = q.FMT24) (c : Nat) :
    (q.setClock (c % q.cycle)).timeWord = r.timeWord ↔ c % q.cycle = r.clock := by
  obtain ⟨-, hclock⟩ := Regs.valid_setClock_mod hq c
  constructor
  · intro h
    obtain ⟨hHT, hHU, hMT, hMU, hST, hSU⟩ := Regs.digits_of_timeWord h
    have hf' : (q.setClock (c % q.cycle)).FMT24 = r.FMT24 := hf.symm
    rw [← hclock]
    simp only [Regs.clock, Regs.hour, Regs.minute, Regs.second, hHT, hHU, hMT, hMU, hST, hSU, hf']
  · intro h
    rw [h]
    conv => rhs; rw [← Regs.setClock_clock hr]
    simp only [Regs.timeWord, Regs.setClock, Regs.writeDigits, hf]

/-- Round a cycle each place is reached from each place in exactly one number of steps below its length. -/
theorem existsUnique_add_mod {a b c : Nat} (ha : a < c) (hb : b < c) : ∃! n, n < c ∧ (a + n) % c = b := by
  have hmod (n : Nat) (hn : n < c) : (a + n) % c = if c ≤ a + n then a + n - c else a + n := by
    rw [Nat.add_mod_eq_ite, Nat.mod_eq_of_lt ha, Nat.mod_eq_of_lt hn]
  refine ⟨if a ≤ b then b - a else b + c - a, ⟨?_, ?_⟩, fun n ⟨hn, hnb⟩ => ?_⟩
  · split <;> omega
  · rw [hmod _ (by split <;> omega)]
    split <;> split <;> omega
  · rw [hmod n hn] at hnb
    split at hnb <;> split <;> omega

/-- Settles O19: a full cycle adds nothing to the clock number; the times of a format are the clock numbers
(`Regs.timeWord_setClock_iff`), and each is reached once round the cycle. -/
theorem fullDayVisitsEachTimeOnce : Obligations.FullDayVisitsEachTimeOnce := by
  unfold Obligations.FullDayVisitsEachTimeOnce
  intro s hs
  have hlt := Regs.clock_lt hs.2
  constructor
  · rw [execAll_advanceSecond hs, Nat.add_mod_right, Nat.mod_eq_of_lt hlt, Regs.setClock_clock hs.2, State.withRegs_self]
  · intro W r hr hf
    have hlt' : r.clock < s.regs.cycle := by
      have := Regs.clock_lt hr
      rwa [Regs.cycle, hf, ← Regs.cycle] at this
    have hvisit (n : Nat) : (∃ t, execAll (List.replicate n .advanceSecond) s = .next t ∧ t.regs.timeWord = r.timeWord) ↔
        (s.regs.clock + n) % s.regs.cycle = r.clock := by
      rw [execAll_advanceSecond hs]
      simp only [Host.Outcome.next.injEq, exists_eq_left']
      exact Regs.timeWord_setClock_iff hs.2 hr hf _
    simp only [hvisit]
    exact existsUnique_add_mod hlt hlt'

end Sys2Proof.Machine
end

section
/-! PROOFS. The statements of 42_segment_decoder.md and 43_display_multiplexer.md: the decoder's values, REFRESH whole, and what
n REFRESHes leave in the cursor, the counter and the time. -/

namespace Sys2Proof.Machine

variable {W : Nat}

/-! ### The decoder -/

/-- SEGDEC shows the decoder's pattern, in every state. -/
theorem exec_segdec (s : State) (d : Digit) :
    exec (.segdec d) s = .next (s.withDecoded (segmentPattern s.params d)) := rfl

/-- Settles O23: the decoder's two branches. -/
theorem segdecGivesPattern : Obligations.SegdecGivesPattern := by
  unfold Obligations.SegdecGivesPattern
  refine fun s d => ⟨fun k hk => ?digit, fun hd => ?blank⟩
  case digit =>
    have hpattern : segmentPattern s.params d = s.params.segTable[k.val] := by
      simp only [segmentPattern, hk, k.isLt, dif_pos]
    rw [exec_segdec, hpattern]
    rfl
  case blank =>
    have hpattern : segmentPattern s.params d = 0#7 := dif_neg (by omega)
    rw [exec_segdec, hpattern]
    rfl

/-- Settles O24, by evaluating the decoder on the sixteen digits. -/
theorem defaultPatterns : Obligations.DefaultPatterns := by
  unfold Obligations.DefaultPatterns
  decide

/-- The decoder reads the segment table as a list that is blank beyond its ten patterns (R150). -/
theorem segmentPattern_eq_getD (p : Params) (d : Digit) : segmentPattern p d = p.segTable.toList.getD d.toNat 0 := by
  unfold segmentPattern
  split
  next h => simp [List.getD_eq_getElem?_getD, h]
  next h => simp [List.getD_eq_getElem?_getD, h]

/-- Settles O27: REFRESH drives the decoder's pattern (`exec_refresh_drives`), SEGDEC shows it, and the table alone decides
it (`segmentPattern_congr`). -/
theorem segdecIsTheDisplayDecoder : Obligations.SegdecIsTheDisplayDecoder := by
  unfold Obligations.SegdecIsTheDisplayDecoder
  intro s s' d hs htable hd
  obtain ⟨t, ht, hseg⟩ := exec_refresh_drives hs hd
  exact ⟨t, _, ht, rfl, hseg.trans (segmentPattern_congr htable d).symm⟩

/-! ### REFRESH, whole -/

/-- REFRESH's effect (R161): the display registers, the count, and at the N-th count the time. -/
theorem refresh_eq {p : Params} {r : Regs W} (hv : r.Valid p) :
    refresh p r =
      { (if r.TICK.toNat + 1 = p.ticksPerSecond then r.setClock ((r.clock + 1) % r.cycle) else r) with
        SEG := segmentPattern p (r.slotDigit r.CUR), DSEL := onehot6 r.CUR, CUR := next6 r.CUR,
        TICK := if r.TICK.toNat + 1 = p.ticksPerSecond then 0 else r.TICK + 1 } := by
  by_cases hfull : r.TICK.toNat + 1 = p.ticksPerSecond
  · rw [refresh_of_last hfull, advanceSecond_eq (valid_showSlot hv), if_pos hfull, if_pos hfull]
    rfl
  · rw [refresh_of_count hfull, if_neg hfull, if_neg hfull]
    rfl

/-- Settles O25: `refresh_eq`, with the pattern read from the table at the digit of the slot. -/
theorem refreshWhole : Obligations.RefreshWhole := by
  unfold Obligations.RefreshWhole
  intro s hs
  have ⟨_, _, hcur, _⟩ := hs.2
  have htick : s.regs.TICK + 1 = BitVec.ofNat _ (s.regs.TICK.toNat + 1) := by
    rw [BitVec.ofNat_add, BitVec.ofNat_toNat, BitVec.setWidth_eq]
    rfl
  refine exec_of_effect_eq rfl hs ?_
  rw [refresh_eq hs.2, segmentPattern_eq_getD, Regs.slotDigit_toNat _ hcur, htick]
  rfl

/-! ### Many REFRESHes -/

/-- What the cursor, the phase and the flag are after n REFRESHes (R164). -/
theorem refresh_iterate_scan {p : Params} {r : Regs W} (hcur : r.CUR.toNat ≤ 5) (n : Nat) :
    ((refresh p)^[n] r).CUR.toNat = (r.CUR.toNat + n) % 6 ∧ ((refresh p)^[n] r).PHASE = r.PHASE ∧
      ((refresh p)^[n] r).FMT24 = r.FMT24 := by
  induction n with
  | zero => exact ⟨(Nat.mod_eq_of_lt (a := r.CUR.toNat) (by omega)).symm, rfl, rfl⟩
  | succ n ih =>
    obtain ⟨ihcur, ihphase, ihflag⟩ := ih
    obtain ⟨hphase, hflag⟩ := refresh_keeps p ((refresh p)^[n] r)
    rw [Function.iterate_succ_apply', (refresh_display p _).1, next6_toNat, ihcur, hphase, ihphase, hflag, ihflag]
    exact ⟨by omega, rfl, rfl⟩

/-- Settles O28: the scan of `refresh_iterate_scan`; the last REFRESH lit the slot of the cursor before it. -/
theorem scanVisitsSlotsInOrder : Obligations.ScanVisitsSlotsInOrder := by
  unfold Obligations.ScanVisitsSlotsInOrder
  intro s n hs
  have ⟨_, _, hcur, _⟩ := hs.2
  obtain ⟨hscan, hphase, hflag⟩ := refresh_iterate_scan (p := s.params) hcur n
  refine ⟨_, execAll_replicate rfl hs n, hscan, fun hn => ?lit, hphase, hflag⟩
  case lit =>
    obtain ⟨m, rfl⟩ := Nat.exists_eq_add_of_le' hn
    obtain ⟨hbefore, -⟩ := refresh_iterate_scan (p := s.params) hcur m
    obtain ⟨-, hDSEL, -⟩ := refresh_display s.params ((refresh s.params)^[m] s.regs)
    rw [State.withRegs_regs, Function.iterate_succ_apply', hDSEL, onehot6, hbefore]
    rfl

/-- One REFRESH counts one tick, and a second where the count is full (R166). -/
theorem refresh_counts {p : Params} {r : Regs W} (hw : p.ticksPerSecond ≤ 2 ^ W) (hv : r.Valid p) :
    (refresh p r).TICK.toNat = (r.TICK.toNat + 1) % p.ticksPerSecond ∧
      (refresh p r).clock = (r.clock + (r.TICK.toNat + 1) / p.ticksPerSecond) % r.cycle := by
  have ⟨_, _, _, htick, _⟩ := hv
  by_cases hfull : r.TICK.toNat + 1 = p.ticksPerSecond
  · obtain ⟨-, hclock⟩ := Regs.valid_setClock_mod hv (r.clock + 1)
    rw [refresh_eq hv, if_pos hfull, if_pos hfull, hfull, Nat.mod_self, Nat.div_self (by omega)]
    exact ⟨by simp, hclock⟩
  · rw [refresh_eq hv, if_neg hfull, if_neg hfull, Nat.mod_eq_of_lt (by omega), Nat.div_eq_of_lt (by omega),
      Nat.add_zero r.clock, Nat.mod_eq_of_lt (Regs.clock_lt hv)]
    exact ⟨tick_succ (by omega), rfl⟩

theorem valid_refresh_iterate {p : Params} {r : Regs W} (hw : p.ticksPerSecond ≤ 2 ^ W) (hv : r.Valid p) (n : Nat) :
    ((refresh p)^[n] r).Valid p := by
  induction n with
  | zero => exact hv
  | succ n ih =>
    rw [Function.iterate_succ_apply']
    exact valid_refresh hw ih

/-- One count more makes a whole unit more where the remainder is full. -/
theorem succ_div_eq_add (a n : Nat) (hn : 0 < n) : (a + 1) / n = a / n + (a % n + 1) / n := by
  conv => lhs; rw [← Nat.div_add_mod a n, Nat.add_assoc]
  exact Nat.mul_add_div hn _ _

/-- n REFRESHes count n ticks, and the whole seconds among them (R166, R170). -/
theorem refresh_iterate_counts {p : Params} {r : Regs W} (hw : p.ticksPerSecond ≤ 2 ^ W) (hv : r.Valid p) (n : Nat) :
    ((refresh p)^[n] r).TICK.toNat = (r.TICK.toNat + n) % p.ticksPerSecond ∧
      ((refresh p)^[n] r).clock = (r.clock + (r.TICK.toNat + n) / p.ticksPerSecond) % r.cycle := by
  have ⟨_, _, hcur, htick, _⟩ := hv
  induction n with
  | zero =>
    rw [Function.iterate_zero_apply, Nat.add_zero, Nat.mod_eq_of_lt htick, Nat.div_eq_of_lt htick, Nat.add_zero,
      Nat.mod_eq_of_lt (Regs.clock_lt hv)]
    exact ⟨rfl, rfl⟩
  | succ n ih =>
    obtain ⟨ihtick, ihclock⟩ := ih
    obtain ⟨-, -, hflag⟩ := refresh_iterate_scan (p := p) hcur n
    have hcycle : ((refresh p)^[n] r).cycle = r.cycle := by rw [Regs.cycle, hflag, ← Regs.cycle]
    obtain ⟨hsucc, hclock⟩ := refresh_counts hw (valid_refresh_iterate hw hv n)
    rw [Function.iterate_succ_apply', hsucc, hclock, ihtick, ihclock, hcycle, Nat.mod_add_mod, Nat.mod_add_mod,
      Nat.add_assoc r.clock, ← succ_div_eq_add _ _ (by omega)]
    exact ⟨rfl, rfl⟩

/-- Settles O29, by `refresh_iterate_counts`. -/
theorem ticksBecomeSeconds : Obligations.TicksBecomeSeconds := by
  unfold Obligations.TicksBecomeSeconds
  intro s n hs
  have ⟨_, _, hcur, _⟩ := hs.2
  obtain ⟨htick, hclock⟩ := refresh_iterate_counts s.width_fits hs.2 n
  obtain ⟨-, -, hflag⟩ := refresh_iterate_scan (p := s.params) hcur n
  exact ⟨_, execAll_replicate rfl hs n, htick, hflag, hclock⟩

/-! ### The width of TICK -/

/-- One bit less than W_TICK does not hold N counts. -/
theorem two_pow_pred_wTick_lt {n : Nat} (h : 1 < wTick n) : 2 ^ (wTick n - 1) < n := by
  have hclog : 1 < Nat.clog 2 n := (lt_max_iff.mp h).resolve_left (lt_irrefl 1)
  have hn : 1 < n := by
    by_contra hle
    rw [Nat.clog_of_right_le_one (by omega)] at hclog
    omega
  rw [wTick, max_eq_right hclog.le]
  exact Nat.pow_pred_clog_lt_self (by decide) hn

/-- Settles O32: enough bits by `State.width_fits`, none to spare by `two_pow_pred_wTick_lt`. -/
theorem tickFitsItsWidth : Obligations.TickFitsItsWidth := by
  unfold Obligations.TickFitsItsWidth
  refine fun s v => ⟨fun hv => ?_, two_pow_pred_wTick_lt⟩
  exact (BitVec.toNat_ofNat ..).trans (Nat.mod_eq_of_lt (hv.trans_le s.width_fits))

end Sys2Proof.Machine
end

section
/-! PROOFS. The statements of 44_input_controller.md and 45_main_loop.md: the polls, a main-loop iteration, the first
iteration after reset, and the lines that share a pin. -/

namespace Sys2Proof.Machine

variable {W : Nat}

/-! ### One STEP -/

/-- A poll whose line reads 0 runs the operation that has its action's effect, and moves PHASE on (R191, R211). -/
theorem exec_step_of_asserted {s : State} {btn : Lines} {k : Nat} {op : Instr} (hfault : s.FAULT = ⟨false⟩)
    (hv : s.regs.Valid s.params) (hop : effect op = some fun p (r : Regs s.width) => action p k r) (hk : k ≤ 4)
    (hphase : s.regs.PHASE.toNat = k) (hline : btn.getLsbD k = false) :
    ∃ t, exec op s = .next t ∧
      exec (.step btn) s = .next { t with regs := { t.regs with PHASE := BitVec.ofNat 3 (k + 1) } } := by
  refine ⟨_, exec_of_valid hop hfault hv, (exec_of_valid rfl hfault hv).trans ?_⟩
  rw [sequencerStep_poll btn (hphase ▸ hk), hphase, hline]
  rfl

/-- Settles O33: each operation has the effect of its action, and both it and STEP begin with `require_valid()`. -/
theorem minuteAndHourDownPolls : Obligations.MinuteAndHourDownPolls := by
  unfold Obligations.MinuteAndHourDownPolls
  intro s btn k op ⟨hfault, _⟩ hop hphase hline
  have heffect : k ≤ 4 ∧ effect op = some fun p (r : Regs s.width) => action p k r := by
    obtain ⟨rfl, rfl⟩ | ⟨rfl, rfl⟩ | ⟨rfl, rfl⟩ := hop
    · exact ⟨by decide, rfl⟩
    · exact ⟨by decide, rfl⟩
    · exact ⟨by decide, rfl⟩
  obtain ⟨hk, he⟩ := heffect
  exact ⟨fun hv => exec_step_of_asserted hfault hv he hk hphase hline, fun hv =>
    ⟨⟨_, exec_of_invalid he hfault hv⟩, _, exec_of_invalid rfl hfault hv⟩⟩

/-- Settles O34: each operation has the effect of its action. -/
theorem formatAndHourUpPolls : Obligations.FormatAndHourUpPolls := by
  unfold Obligations.FormatAndHourUpPolls
  intro s btn k op ⟨⟨hfault, _⟩, hv⟩ hop hphase hline
  obtain ⟨rfl, rfl⟩ | ⟨rfl, rfl⟩ := hop
  · exact exec_step_of_asserted hfault hv rfl (by decide) hphase hline
  · exact exec_step_of_asserted hfault hv rfl (by decide) hphase hline

/-- Settles O35: a poll whose line reads 1 leaves the registers as they are. -/
theorem idlePollMovesPhaseOnly : Obligations.IdlePollMovesPhaseOnly := by
  unfold Obligations.IdlePollMovesPhaseOnly
  intro s btn hs hphase hline
  refine exec_of_effect_eq rfl hs ?_
  rw [sequencerStep_poll btn hphase, hline]
  rfl

/-- Settles O36, by `sequencerStep_refresh`. -/
theorem phaseFiveRefreshes : Obligations.PhaseFiveRefreshes := by
  unfold Obligations.PhaseFiveRefreshes
  exact fun s btn hs hphase => ⟨_, exec_of_sound rfl hs, exec_of_effect_eq rfl hs (sequencerStep_refresh btn hphase)⟩

/-- A Valid phase is one of the polls or the REFRESH phase (R28). -/
theorem Regs.phase_cases {p : Params} {r : Regs W} (hv : r.Valid p) : r.PHASE.toNat ≤ 4 ∨ r.PHASE.toNat = 5 := by
  obtain ⟨-, -, -, -, hphase⟩ := hv
  omega

/-- Settles O37: a poll reads its own line, REFRESH none. -/
theorem stepReadsOneLine : Obligations.StepReadsOneLine := by
  unfold Obligations.StepReadsOneLine
  intro s a b hs hline
  have hsame : sequencerStep a s.params s.regs = sequencerStep b s.params s.regs := by
    obtain hpoll | hrefresh := Regs.phase_cases hs.2
    · rw [sequencerStep_poll a hpoll, sequencerStep_poll b hpoll, hline hpoll]
    · rw [sequencerStep_refresh a hrefresh, sequencerStep_refresh b hrefresh]
  exact (exec_of_effect_eq rfl hs hsame).trans (exec_of_sound rfl hs).symm

/-- Only STEP's effect writes PHASE. -/
theorem effect_PHASE {i : Instr} {f : Params → Regs W → Regs W} (he : effect i = some f) (hi : ∀ b, i ≠ .step b)
    (p : Params) (r : Regs W) : (f p r).PHASE = r.PHASE := by
  cases i <;> simp only [effect, Option.some.injEq, reduceCtorEq] at he <;> subst he
  case toggleFormat => rfl
  case incMinute => exact (incMinute_beside r).PHASE
  case decMinute => exact (decMinute_beside r).PHASE
  case incHour => exact (hourInc_beside r).PHASE
  case decHour => exact (decHour_beside r).PHASE
  case advanceSecond => exact (advanceSecond_beside r).PHASE
  case refresh => exact (refresh_keeps p r).1
  case hourUpAction => exact (hourUp_beside p r).PHASE
  case step b => exact absurd rfl (hi b)

/-- Settles O41: STEP's effect writes the next phase, the other effects keep it (`effect_PHASE`), and the operations without
an effect write other registers or none. -/
theorem onlyStepMovesPhase : Obligations.OnlyStepMovesPhase := by
  unfold Obligations.OnlyStepMovesPhase
  intro s t i _ h
  refine ⟨?step, fun hi => ?others⟩
  case step =>
    rintro ⟨b, rfl⟩
    obtain ⟨-, -, rfl⟩ := guarded_next (f := sequencerStep b) h
    exact next6_toNat s.regs.PHASE
  case others =>
    obtain ⟨f, he, -, rfl⟩ | ⟨ht, hu, mt, mu, st, su, -, -, -, rfl⟩ | ⟨d, -, rfl⟩ | ⟨-, rfl⟩ := exec_next h
    · exact effect_PHASE he hi s.params s.regs
    · rfl
    · rfl
    · rfl

/-! ### A main-loop iteration -/

/-- The registers after the five polls with the lines held, in phase order, and one REFRESH (R212, R213). -/
def iteration (b : Lines) (p : Params) (r : Regs W) : Regs W :=
  refresh p (poll p 4 (b.getLsbD 4) (poll p 3 (b.getLsbD 3) (poll p 2 (b.getLsbD 2) (poll p 1 (b.getLsbD 1)
    (poll p 0 (b.getLsbD 0) r)))))

theorem iteration_PHASE (b : Lines) (p : Params) (r : Regs W) : (iteration b p r).PHASE = r.PHASE := by
  rw [iteration, (refresh_keeps p _).1]
  simp only [(poll_beside p _ _ _).PHASE]

/-- STEP at poll phase k of registers given without their phase. -/
theorem sequencerStep_atPhase {p : Params} (b : Lines) (r : Regs W) {k : Nat} (hk : k ≤ 4) :
    sequencerStep b p (r.atPhase (BitVec.ofNat 3 k)) =
      (poll p k (b.getLsbD k) r).atPhase (BitVec.ofNat 3 (k + 1)) := by
  have hphase : (r.atPhase (BitVec.ofNat 3 k)).PHASE.toNat = k := (BitVec.toNat_ofNat ..).trans (Nat.mod_eq_of_lt (by omega))
  rw [sequencerStep_poll b (hphase.trans_le hk), hphase, poll_atPhase, Regs.atPhase_atPhase]

/-- Six STEPs from PHASE 0 with the lines held are an iteration. -/
theorem sequencerStep_iterate_six {p : Params} {r : Regs W} (b : Lines) (h : r.PHASE = 0) :
    (sequencerStep b p)^[6] r = iteration b p r := by
  have h0 : r = r.atPhase (BitVec.ofNat 3 0) := by rw [Regs.atPhase, ← show r.PHASE = BitVec.ofNat 3 0 from h]
  have h5 (q : Regs W) : sequencerStep b p (q.atPhase (BitVec.ofNat 3 5)) = (refresh p q).atPhase 0 := by
    rw [sequencerStep_refresh b rfl, refresh_atPhase, Regs.atPhase_atPhase]
  have hend : (iteration b p r).atPhase 0 = iteration b p r := by
    rw [Regs.atPhase, ← h, ← iteration_PHASE b p r]
  conv => lhs; rw [h0]
  simp only [Function.iterate_succ_apply, Function.iterate_zero_apply]
  rw [sequencerStep_atPhase b r (by decide), sequencerStep_atPhase b _ (by decide), sequencerStep_atPhase b _ (by decide),
    sequencerStep_atPhase b _ (by decide), sequencerStep_atPhase b _ (by decide), h5]
  exact hend

/-- An asserted line's operation, or none, is the poll of that line. -/
theorem execAll_poll {s : State} {op : Instr} {k : Nat} (hs : s.Sound)
    (hop : effect op = some fun p (r : Regs s.width) => action p k r) (level : Bool) (is : List Instr) :
    execAll ((if level then [] else [op]) ++ is) s = execAll is (s.withRegs (poll s.params k level s.regs)) := by
  cases level
  · exact execAll_effect hop hs
  · rfl

theorem State.Sound.poll {s : State} (hs : s.Sound) (k : Nat) (level : Bool) :
    (s.withRegs (Machine.poll s.params k level s.regs)).Sound := ⟨hs.1, valid_poll hs.2⟩

/-- The operations of an iteration leave an iteration's registers. -/
theorem execAll_iterationOps {s : State} (hs : s.Sound) (b : Lines) :
    execAll (iterationOps b) s = .next (s.withRegs (iteration b s.params s.regs)) := by
  have hs0 := hs.poll 0 (b.getLsbD 0)
  have hs1 := hs0.poll 1 (b.getLsbD 1)
  have hs2 := hs1.poll 2 (b.getLsbD 2)
  have hs3 := hs2.poll 3 (b.getLsbD 3)
  have hs4 := hs3.poll 4 (b.getLsbD 4)
  simp only [iterationOps, List.append_assoc]
  rw [execAll_poll hs (k := 0) rfl, execAll_poll hs0 (k := 1) rfl, execAll_poll hs1 (k := 2) rfl,
    execAll_poll hs2 (k := 3) rfl, execAll_poll hs3 (k := 4) rfl, execAll_effect rfl hs4]
  rfl

/-- Settles O38: both runs leave the registers of `iteration`. -/
theorem iterationIsActionsThenRefresh : Obligations.IterationIsActionsThenRefresh := by
  unfold Obligations.IterationIsActionsThenRefresh
  intro s btn hs hphase
  refine ⟨_, ?_, execAll_iterationOps hs btn, (iteration_PHASE btn s.params s.regs).trans hphase⟩
  rw [execAll_replicate rfl hs, sequencerStep_iterate_six btn hphase]

/-! ### The sequencer by itself -/

theorem step_alone_of_sound {s : State} (hs : s.Sound) (hp : s.env.pending = []) :
    step s = .next ((s.countDraw (s.regs.PHASE == 5)).withRegs
      (sequencerStep (drawnLines s.env.draws) s.params s.regs)) :=
  step_alone hp hs.1.1 hs.2

/-- From any phase with nothing waiting, the sequencer's steps up to the end of the iteration read one draw, and the last of
them takes the next (R199, R212). -/
theorem stepMany_to_end {s : State} {n : Nat} (hs : s.Sound) (hp : s.env.pending = []) (h : s.regs.PHASE.toNat + n = 5) :
    stepMany (n + 1) s = .next ((s.countDraw true).withRegs
      ((sequencerStep (drawnLines s.env.draws) s.params)^[n + 1] s.regs)) := by
  induction n generalizing s with
  | zero =>
    have hlast : (s.regs.PHASE == 5) = true := beq_iff_eq.mpr (BitVec.eq_of_toNat_eq h)
    rw [stepMany, step_alone_of_sound hs hp, hlast]
    rfl
  | succ n ih =>
    have hearlier : (s.regs.PHASE == 5) = false := beq_eq_false_iff_ne.mpr fun he => by
      rw [he] at h
      change 5 + (n + 1) = 5 at h
      omega
    have hstep : step s = .next (s.withRegs (sequencerStep (drawnLines s.env.draws) s.params s.regs)) := by
      rw [step_alone_of_sound hs hp, hearlier]
      rfl
    have hphase : (next6 s.regs.PHASE).toNat + n = 5 := by
      rw [next6_toNat]
      omega
    rw [stepMany, hstep]
    exact ih (hs.effect (i := .step (drawnLines s.env.draws)) rfl) hp hphase

/-- Settles O42: five lines, five pins. -/
theorem linesReadTheirPins : Obligations.LinesReadTheirPins := by
  unfold Obligations.LinesReadTheirPins
  intro m pins k
  fin_cases k <;> simp only [linesOfPins, BitVec.getLsbD_append] <;> simp

/-- Settles O40: the sequencer's six steps are an iteration on the draw's lines (`stepMany_to_end`), so are the direct
operations, and a line's level is its pin's. -/
theorem sharedPinsFireTogether : Obligations.SharedPinsFireTogether := by
  unfold Obligations.SharedPinsFireTogether
  intro s hs hp hphase
  have hend : stepMany 6 s = .next ((s.countDraw true).withRegs (iteration (drawnLines s.env.draws) s.params s.regs)) := by
    have hsix := sequencerStep_iterate_six (p := s.params) (drawnLines s.env.draws) hphase
    exact hsix ▸ stepMany_to_end hs hp (congrArg (BitVec.toNat · + 5) hphase)
  refine ⟨⟨_, hend, (iteration_PHASE (drawnLines s.env.draws) s.params s.regs).trans hphase,
    execAll_iterationOps (s := s.countDraw true) hs _⟩, fun j k hjk => ?_⟩
  · rw [drawnLines, linesReadTheirPins, linesReadTheirPins, hjk]

/-! ### Dark start -/

theorem execAll_append {is js : List Instr} {s t : State} (h : execAll is s = .next t) :
    execAll (is ++ js) s = execAll js t := by
  induction is generalizing s with
  | nil =>
    cases h
    rfl
  | cons i is ih =>
    cases hi : exec i s with
    | next u =>
      rw [execAll_cons hi] at h
      rw [List.cons_append, execAll_cons hi]
      exact ih h
    | fault e => simp [execAll, hi] at h
    | refused e => simp [execAll, hi] at h

/-- STEPs that stay within the polls count PHASE on and show nothing new. -/
theorem execAll_polls {s : State} {bs : List Lines} (hs : s.Sound) (h : s.regs.PHASE.toNat + bs.length ≤ 5) :
    ∃ q : Regs s.width, execAll (bs.map .step) s = .next (s.withRegs q) ∧ q.Valid s.params ∧
      q.SEG = s.regs.SEG ∧ q.DSEL = s.regs.DSEL ∧ q.CUR = s.regs.CUR ∧
      q.PHASE.toNat = s.regs.PHASE.toNat + bs.length := by
  induction bs generalizing s with
  | nil => exact ⟨s.regs, rfl, hs.2, rfl, rfl, rfl, rfl⟩
  | cons b bs ih =>
    rw [List.length_cons] at h
    have hpoll : s.regs.PHASE.toNat ≤ 4 := by omega
    have hphase : (sequencerStep b s.params s.regs).PHASE.toNat = s.regs.PHASE.toNat + 1 := by
      rw [sequencerStep_poll b hpoll]
      exact (BitVec.toNat_ofNat ..).trans (Nat.mod_eq_of_lt (by omega))
    obtain ⟨hCUR, -, hSEG, hDSEL, -⟩ := sequencerStep_displayFrame (p := s.params) (.step b) b hpoll
    obtain ⟨q, hrun, hv, ihSEG, ihDSEL, ihCUR, ihphase⟩ :=
      ih (s := s.withRegs (sequencerStep b s.params s.regs)) (hs.effect (i := .step b) rfl)
        (by rw [State.withRegs_regs, hphase]; omega)
    rw [State.withRegs_regs] at ihSEG ihDSEL ihCUR ihphase
    refine ⟨q, ?_, hv, ihSEG.trans hSEG, ihDSEL.trans hDSEL, ihCUR.trans hCUR, ?_⟩
    · rw [List.map_cons, execAll_effect rfl hs]
      exact hrun
    · rw [ihphase, hphase, List.length_cons]
      omega

/-- Settles O39: five polls from reset keep the dark outputs (`execAll_polls`), and the sixth STEP is the REFRESH of the slot
the cursor started at. -/
theorem darkUntilSixthStep : Obligations.DarkUntilSixthStep := by
  unfold Obligations.DarkUntilSixthStep
  have hreset : State.reset.Sound := resetMeetsInvariant.2
  refine fun bs => ⟨fun hlen => ?dark, fun hlen => ?lit⟩
  case dark =>
    obtain ⟨q, hrun, -, hSEG, hDSEL, -, hphase⟩ :=
      execAll_polls (bs := bs) hreset ((Nat.zero_add _).trans_le hlen)
    exact ⟨_, hrun, hSEG, hDSEL, hphase.trans (Nat.zero_add _)⟩
  case lit =>
    obtain rfl | ⟨polls, last, rfl⟩ := List.eq_nil_or_concat bs
    · cases hlen
    · have hfive : polls.length = 5 := by simpa using hlen
      obtain ⟨q, hrun, hv, -, -, hCUR, hphase⟩ :=
        execAll_polls (bs := polls) hreset ((Nat.zero_add _).trans_le hfive.le)
      have hphase : q.PHASE.toNat = 5 := hphase.trans ((Nat.zero_add _).trans hfive)
      obtain ⟨-, hDSEL, -⟩ := refresh_display State.reset.params q
      have hlast : exec (.step last) (State.reset.withRegs q) =
          .next (State.reset.withRegs ((refresh State.reset.params q).atPhase 0)) := by
        rw [← sequencerStep_refresh last hphase]
        exact exec_withRegs rfl rfl hv
      have hslot : (refresh State.reset.params q).DSEL = 0b000001 := by
        rw [hDSEL, hCUR]
        rfl
      refine ⟨State.reset.withRegs ((refresh State.reset.params q).atPhase 0), ?_, hslot, rfl⟩
      rw [List.map_concat, List.concat_eq_append, execAll_append hrun]
      exact execAll_cons hlast

end Sys2Proof.Machine
end
